-- ==== Sys2Proof/Word.lean ====
section
/-! DEFINITION. The word types of 00_scope.md R17: a byte is 8 bits, a word is 32 bits, a block is 16 bytes;
and the schedule store of 10_state.md R26: 60 words. Types only; every operation on them stands in Machine/. -/

namespace Sys2Proof

/-- A byte (R17): 8 bits. -/
abbrev Byte := BitVec 8

/-- A word (R17): 32 bits; the width of every slot of the register window (R40). -/
abbrev Word := BitVec 32

/-- A block, and the state array `S` of a cipher run (R17, R80): 16 bytes, byte `k` at index `k`. -/
abbrev Block := Vector Byte 16

/-- The content of the round-key store `RK[0..59]` (R26): word `4r + c` is column `c` of round key `r`. -/
abbrev Schedule := Vector Word 60

end Sys2Proof
end

