-- ==== Sys2Proof/Machine/Field.lean ====
section
/-! DEFINITION. Arithmetic in GF(2^8) and the S-box with its inverse (40_aes_functions.md R75 to R81). -/

namespace Sys2Proof.Machine

/-- R76: multiplication by `x`, modulo `x^8 + x^4 + x^3 + x + 1`. -/
def xtime (a : Byte) : Byte := if a.getLsbD 7 then a <<< 1 ^^^ 0x1B else a <<< 1

/-- R76: the loop of `gmul`, `n` turns from bit `i` of `b` on, with the accumulator `p` and the running multiple `t`. -/
def gmulLoop (b : Byte) : (n i : Nat) → (p t : Byte) → Byte
  | 0, _, p, _ => p
  | n + 1, i, p, t => gmulLoop b n (i + 1) (if b.getLsbD i then p ^^^ t else p) (xtime t)

/-- R76: multiplication in GF(2^8). -/
def gmul (a b : Byte) : Byte := gmulLoop b 8 0 0 a

/-- `a` multiplied by `x` `n` times; R88 uses it for the round constants. -/
def xpow (a : Byte) : Nat → Byte
  | 0 => a
  | n + 1 => xtime (xpow a n)

/-- R78: the bytes `n`, `n - 1`, ..., 1 searched for one that multiplies with `a` to 1; 0 when there is none. -/
def ginvSearch (a : Byte) : Nat → Byte
  | 0 => 0
  | n + 1 => if gmul a (BitVec.ofNat 8 (n + 1)) = 1 then BitVec.ofNat 8 (n + 1) else ginvSearch a n

/-- R78: the multiplicative inverse: the one byte `b` with `gmul(a, b) = 1`, and `ginv(0) = 0` by convention. The machine
never computes it (R79: the table is normative); it is here for the algebraic definition of the S-box. -/
def ginv (a : Byte) : Byte := ginvSearch a 255

/-- R79: the affine map of the S-box, applied to a byte. -/
def sboxAffine (b : Byte) : Byte :=
  b ^^^ b.rotateLeft 1 ^^^ b.rotateLeft 2 ^^^ b.rotateLeft 3 ^^^ b.rotateLeft 4 ^^^ 0x63

/-- R79: the table of `SBOX`, one row of the printed table a number: its 16 entries, column x0 first. -/
def sboxRows : List (BitVec 128) :=
  [0x637c777bf26b6fc53001672bfed7ab76, 0xca82c97dfa5947f0add4a2af9ca472c0] ++
  [0xb7fd9326363ff7cc34a5e5f171d83115, 0x04c723c31896059a071280e2eb27b275] ++
  [0x09832c1a1b6e5aa0523bd6b329e32f84, 0x53d100ed20fcb15b6acbbe394a4c58cf] ++
  [0xd0efaafb434d338545f9027f503c9fa8, 0x51a3408f929d38f5bcb6da2110fff3d2] ++
  [0xcd0c13ec5f974417c4a77e3d645d1973, 0x60814fdc222a908846eeb814de5e0bdb] ++
  [0xe0323a0a4906245cc2d3ac629195e479, 0xe7c8376d8dd54ea96c56f4ea657aae08] ++
  [0xba78252e1ca6b4c6e8dd741f4bbd8b8a, 0x703eb5664803f60e613557b986c11d9e] ++
  [0xe1f8981169d98e949b1e87e9ce5528df, 0x8ca1890dbfe6426841992d0fb054bb16]

/-- R81: the table of `INV_SBOX`, in the same layout. -/
def invSboxRows : List (BitVec 128) :=
  [0x52096ad53036a538bf40a39e81f3d7fb, 0x7ce339829b2fff87348e4344c4dee9cb] ++
  [0x547b9432a6c2233dee4c950b42fac34e, 0x082ea16628d924b2765ba2496d8bd125] ++
  [0x72f8f66486689816d4a45ccc5d65b692, 0x6c704850fdedb9da5e154657a78d9d84] ++
  [0x90d8ab008cbcd30af7e45805b8b34506, 0xd02c1e8fca3f0f02c1afbd0301138a6b] ++
  [0x3a9111414f67dcea97f2cfcef0b4e673, 0x96ac7422e7ad3585e2f937e81c75df6e] ++
  [0x47f11a711d29c5896fb7620eaa18be1b, 0xfc563e4bc6d279209adbc0fe78cd5af4] ++
  [0x1fdda8338807c731b11210592780ec5f, 0x60517fa919b54a0d2de57a9f93c99cef] ++
  [0xa0e03b4dae2af5b0c8ebbb3c83539961, 0x172b047eba77d626e169146355210c7d]

/-- R79, R81: the entry in the row of the high hex digit of `a` and the column of its low hex digit. -/
def tableEntry (rows : List (BitVec 128)) (a : Byte) : Byte :=
  (rows.getD (a.toNat / 16) 0).extractLsb' (120 - 8 * (a.toNat % 16)) 8

/-- R79: `SBOX[a]`. -/
def sbox (a : Byte) : Byte := tableEntry sboxRows a

/-- R81: `INV_SBOX[a]`. -/
def invSbox (a : Byte) : Byte := tableEntry invSboxRows a

end Sys2Proof.Machine
end

