-- ==== Sys2Proof/Config.lean ====
section
/-! DEFINITION. The implementation parameters of 00_scope.md section 4: those the spec fixes (R7, R8) as constants,
those it leaves open (R9) as constants with no body, and the one free value of the model (log entry 6). -/

namespace Sys2Proof

/-- R7: the block size in bytes. -/
def Config.blockBytes : Nat := 16

/-- R7: the legal key lengths in bytes (128, 192 and 256 bits). -/
def Config.keyLengths : List Nat := [16, 24, 32]

/-- R8, R40: the number of word slots of the register window. -/
def Config.windowSlots : Nat := 64

/-- R8, R26: the number of 32-bit words of the one schedule slot. -/
def Config.scheduleWords : Nat := 60

/-- R9: the two implementation strategies of the source. -/
inductive Impl where
  | software
  | hardware
  deriving DecidableEq, Repr, Inhabited

/-- R9, R41: `BASE` divided by 256; `BASE` is a multiple of 256 and is otherwise open. No rule reads it (log entry 5). -/
opaque Config.basePage : Nat

/-- R9, R41: the bus address of word slot 0. No rule reads it. -/
def Config.base : Nat := 256 * Config.basePage

/-- R9, R160: `LAT(cmd)`, the time the command with this command word takes. No rule reads it. -/
opaque Config.latency : Word → Nat

/-- R9, R12: `IMPL`, which of the source's two strategies computes a result. No rule reads it. -/
opaque Config.impl : Impl

/-- DESIGN CHOICE (log entry 6), a FREE VALUE: what a read of a schedule word beyond `RK[59]` gives. R86 gives no such
word; only a state that no run reaches (`KVALID` = 1 with `NR` = 15, excluded by R37 I2) reads one. -/
opaque Config.absentScheduleWord : Nat → Word

end Sys2Proof
end

