-- ==== Sys2Proof/Syntax.lean ====
section
/-! DEFINITION. The commands of the opcode table (30_encoding.md R64), the events of the machine (00_scope.md R13) and the
host script syntax (30_encoding.md R68, R69). -/

namespace Sys2Proof

/-- The five commands of AESC-1 (R64), one constructor per row of spec/opcode_table.json. The only operand a command word
carries is `klen`, bits 15:8, an unsigned number of bytes (R63). -/
inductive Instr where
  /-- `KEXP.E klen` (R100): derive the encryption-order schedule. -/
  | kexpE (klen : BitVec 8)
  /-- `KEXP.D klen` (R101): derive the decryption-order schedule. -/
  | kexpD (klen : BitVec 8)
  /-- `ENC` (R110): encrypt the block in `DIN`. -/
  | enc
  /-- `DEC` (R115): decrypt the block in `DIN`. -/
  | dec
  /-- `WIPE` (R120): clear every register that can hold secret material. -/
  | wipe
  deriving DecidableEq, Repr

/-- The only events (R13): the two host transactions, already reduced to a word index in 0..63 (R41), and the reset event
the platform delivers (R145). -/
inductive Event where
  /-- `WR(i, v)` (R45). -/
  | wr (i : BitVec 6) (v : Word)
  /-- `RD(i)` (R46). -/
  | rd (i : BitVec 6)
  /-- Reset (R145). -/
  | reset
  deriving DecidableEq, Repr

/-- A line of a host script as written (R68): numbers of any size, so that an ill-formed line can be written and refused. -/
inductive Line where
  /-- `WR <i>, <v>` -/
  | wr (i v : Nat)
  /-- `RD <i> -> <name>` -/
  | rd (i : Nat) (name : String)
  /-- `KEXP.E <klen>` -/
  | kexpE (klen : Nat)
  /-- `KEXP.D <klen>` -/
  | kexpD (klen : Nat)
  /-- `ENC` -/
  | enc
  /-- `DEC` -/
  | dec
  /-- `WIPE` -/
  | wipe
  deriving DecidableEq, Repr

/-- The pseudo-instructions (R69). `key_expand` is `cook_encrypt_key` when the schedule is for `ENC` and `cook_decrypt_key`
when it is for `DEC`. -/
inductive Pseudo where
  /-- `LDKEY X` -/
  | ldKey (x : List Byte)
  /-- `LDBLK X` -/
  | ldBlk (x : List Byte)
  /-- `STBLK -> Y` -/
  | stBlk (y : String)
  /-- `cook_encrypt_key X` -/
  | cookEncryptKey (x : List Byte)
  /-- `cook_decrypt_key X` -/
  | cookDecryptKey (x : List Byte)
  /-- `key_expand X`, with the direction the following block command needs -/
  | keyExpand (forDecryption : Bool) (x : List Byte)
  /-- `encrypt_block X -> Y` -/
  | encryptBlock (x : List Byte) (y : String)
  /-- `decrypt_block X -> Y` -/
  | decryptBlock (x : List Byte) (y : String)
  deriving DecidableEq, Repr

/-- R68, R42: the slot names of the script syntax, as word indices. -/
def Slot.cmd : BitVec 6 := 0
/-- `STATUS` = 1 (R68). -/
def Slot.status : BitVec 6 := 1
/-- `KEY[j]` is at word index `4 + j` (R42). -/
def Slot.key (j : Fin 8) : BitVec 6 := BitVec.ofNat 6 (4 + j.val)
/-- `DIN[j]` is at word index `12 + j` (R42). -/
def Slot.din (j : Fin 4) : BitVec 6 := BitVec.ofNat 6 (12 + j.val)
/-- `DOUT[j]` is at word index `16 + j` (R42). -/
def Slot.dout (j : Fin 4) : BitVec 6 := BitVec.ofNat 6 (16 + j.val)

end Sys2Proof
end

