-- ==== Sys2Proof/Machine/State.lean ====
section
/-! DEFINITION. The state of the machine as plain data (10_state.md R20), its reset values (R34), and the reasons a step can
stop. The spec gives the machine no stop at all: 60_exceptions.md R126 ("It does not stop the core"), R136 ("Trap entry.
There is none"), R160 ("Every transaction completes"). -/

namespace Sys2Proof.Machine

/-- The state. The first nine fields are exactly the architectural state of R20. `pending` and `returned` are the model's own
(log entries 1 and 2): R13's step takes the state AND a transaction and gives the state AND read data, and Host.Core's step
has the state alone. -/
structure State where
  /-- `KEY[0..7]` (R22): the raw key; write only to the host. -/
  key : Vector Word 8
  /-- `DIN[0..3]` (R23): the input block. -/
  din : Vector Word 4
  /-- `DOUT[0..3]` (R24): the output block; read only to the host. -/
  dout : Vector Word 4
  /-- `RK[0..59]` (R26): the key schedule; no host access. -/
  rk : Schedule
  /-- `KVALID` (R28): `RK` holds a schedule. -/
  kvalid : Bool
  /-- `KDIR` (R28): false is 0, encryption order; true is 1, decryption order. -/
  kdir : Bool
  /-- `NR` (R28): the round count of the schedule. -/
  nr : BitVec 4
  /-- `DVALID` (R29): `DOUT` holds the result of the last `ENC` or `DEC`. -/
  dvalid : Bool
  /-- `ERR` (R30): the sticky error latch; bit `n` belongs to the cause of code `n` (R125). -/
  err : BitVec 4
  /-- The model's own: the events the host and the platform have issued and the core has not yet seen, oldest first. -/
  pending : List Event
  /-- The model's own: the values the host's `RD` transactions have returned, oldest first. -/
  returned : List Word
  deriving DecidableEq, Repr

/-- R34, R145: every piece of state is zero after reset; the core "is idle until the host's first transaction" (R146), so
nothing is pending and nothing has been returned (log entries 1 and 2). -/
def State.reset : State where
  key := Vector.replicate 8 0
  din := Vector.replicate 4 0
  dout := Vector.replicate 4 0
  rk := Vector.replicate 60 0
  kvalid := false
  kdir := false
  nr := 0
  dvalid := false
  err := 0
  pending := []
  returned := []

/-- The reasons a step can stop with a fault: NONE. Every failure of this hardware is a next state with a sticky bit of `ERR`
set (R126), there is no faulted mode (R132) and every transaction completes (R150). An empty list of reasons is safe: the
model stops nowhere (log entry 8). -/
inductive Fault where
  deriving DecidableEq, Repr

/-- The reasons a step can be refused. -/
inductive Refusal where
  /-- Raised by an arm of `exec` whose instruction has no meaning yet: by none of the five. Safe: a refusal stops the machine. -/
  | notModelled (mnemonic : String)
  deriving DecidableEq, Repr

end Sys2Proof.Machine
end

