-- ==== Sys2Proof/Machine/Operands.lean ====
section
/-! DEFINITION. The operand forms: the packing of bytes into words (00_scope.md R18, R19; 20_memory.md R43), the byte strings
the commands read from the register files, and the check on `klen` (41_key_expand.md R100, R102). -/

namespace Sys2Proof.Machine

/-- R18: `word(b0, b1, b2, b3)`, the first byte most significant. -/
def wordOf (b0 b1 b2 b3 : Byte) : Word :=
  b0.setWidth 32 <<< 24 ||| b1.setWidth 32 <<< 16 ||| b2.setWidth 32 <<< 8 ||| b3.setWidth 32

/-- R18: `byte(w, j) = w[31 - 8j : 24 - 8j]`, for `j` = 0, 1, 2, 3. -/
def byteOf (w : Word) (j : Nat) : Byte := w.extractLsb' (24 - 8 * j) 8

/-- R18: the four bytes of a word, byte 0 first. -/
def wordBytes (w : Word) : List Byte := [byteOf w 0, byteOf w 1, byteOf w 2, byteOf w 3]

/-- R19: `bytes(F, n)`, the first `n` bytes of a register file. -/
def fileBytes (file : List Word) (n : Nat) : List Byte := (file.flatMap wordBytes).take n

/-- R19: `words(X)`, the words of a byte string. The byte strings of this hardware are whole words long. -/
def packWords : List Byte → List Word
  | b0 :: b1 :: b2 :: b3 :: rest => wordOf b0 b1 b2 b3 :: packWords rest
  | _ => []

/-- R100: `K <- bytes(KEY, klen)`, the bytes a key command reads. -/
def keyBytes (key : Vector Word 8) (n : Nat) : List Byte := fileBytes key.toList n

/-- R110, R115: `B <- bytes(DIN, 16)`: byte `k` is `byte(DIN[k div 4], k mod 4)`. -/
def blockOf (file : Vector Word 4) : Block :=
  Vector.ofFn fun k => byteOf (file[k.val / 4]) (k.val % 4)

/-- R110, R115: `words(C)` of a block: word `j` is `word(C[4j], C[4j+1], C[4j+2], C[4j+3])`. -/
def wordsOf (block : Block) : Vector Word 4 :=
  Vector.ofFn fun j => wordOf (block[4 * j.val]) (block[4 * j.val + 1]) (block[4 * j.val + 2]) (block[4 * j.val + 3])

/-- R100, R102: the check on `klen` alone; the legal lengths are 16, 24 and 32 bytes. -/
def legalKeyLength (klen : BitVec 8) : Bool := klen == 16 || klen == 24 || klen == 32

/-- R10, R100: `Nk = klen / 4`, the key length in words. -/
def keyWords (klen : BitVec 8) : Nat := klen.toNat / 4

/-- R10: `Nr = Nk + 6`, the round count. -/
def roundCount (nk : Nat) : Nat := nk + 6

end Sys2Proof.Machine
end

