-- ==== Sys2Proof/Machine/Rounds.lean ====
section
/-! DEFINITION. The round transformations on the state array (40_aes_functions.md R80 to R86): the byte in row `r` and
column `c` is `S[r + 4c]`. -/

namespace Sys2Proof.Machine

/-- R82: each byte is replaced by its `SBOX` entry. -/
def subBytes (s : Block) : Block := Vector.ofFn fun k => sbox (s[k.val])

/-- R82: each byte is replaced by its `INV_SBOX` entry. -/
def invSubBytes (s : Block) : Block := Vector.ofFn fun k => invSbox (s[k.val])

/-- R83: row `r` rotates left by `r` columns: `S[r + 4((c + r) mod 4)]` at `r + 4c`. -/
def shiftRows (s : Block) : Block :=
  Vector.ofFn fun k => s[k.val % 4 + 4 * ((k.val / 4 + k.val % 4) % 4)]

/-- R83: row `r` rotates right by `r` columns: `S[r + 4((c - r) mod 4)]` at `r + 4c`. -/
def invShiftRows (s : Block) : Block :=
  Vector.ofFn fun k => s[k.val % 4 + 4 * ((k.val / 4 + 4 - k.val % 4) % 4)]

/-- R84: `MixColumn` on one column. -/
def mixColumn (a0 a1 a2 a3 : Byte) : Vector Byte 4 :=
  #v[gmul a0 2 ^^^ gmul a1 3 ^^^ a2 ^^^ a3,
     a0 ^^^ gmul a1 2 ^^^ gmul a2 3 ^^^ a3,
     a0 ^^^ a1 ^^^ gmul a2 2 ^^^ gmul a3 3,
     gmul a0 3 ^^^ a1 ^^^ a2 ^^^ gmul a3 2]

/-- R85: `InvMixColumn` on one column. -/
def invMixColumn (a0 a1 a2 a3 : Byte) : Vector Byte 4 :=
  #v[gmul a0 0x0e ^^^ gmul a1 0x0b ^^^ gmul a2 0x0d ^^^ gmul a3 0x09,
     gmul a0 0x09 ^^^ gmul a1 0x0e ^^^ gmul a2 0x0b ^^^ gmul a3 0x0d,
     gmul a0 0x0d ^^^ gmul a1 0x09 ^^^ gmul a2 0x0e ^^^ gmul a3 0x0b,
     gmul a0 0x0b ^^^ gmul a1 0x0d ^^^ gmul a2 0x09 ^^^ gmul a3 0x0e]

/-- R84, R85: a map on one column applied to each of the four columns on its own. -/
def onColumns (f : Byte → Byte → Byte → Byte → Vector Byte 4) (s : Block) : Block :=
  Vector.ofFn fun k =>
    (f (s[4 * (k.val / 4)]) (s[4 * (k.val / 4) + 1]) (s[4 * (k.val / 4) + 2]) (s[4 * (k.val / 4) + 3]))[k.val % 4]

/-- R84. -/
def mixColumns (s : Block) : Block := onColumns mixColumn s

/-- R85. -/
def invMixColumns (s : Block) : Block := onColumns invMixColumn s

/-- `W[i]` of a schedule. The array has 60 words (R86, R90); what a read beyond them gives is free (log entry 6). -/
def scheduleWord (w : Schedule) (i : Nat) : Word :=
  if h : i < 60 then w[i] else Config.absentScheduleWord i

/-- R86: round key `r` of the schedule is exclusive-ored into the state: column `c` with word `W[4r + c]`. -/
def addRoundKey (s : Block) (w : Schedule) (r : Nat) : Block :=
  Vector.ofFn fun k => s[k.val] ^^^ byteOf (scheduleWord w (4 * r + k.val / 4)) (k.val % 4)

end Sys2Proof.Machine
end

