-- ==== Sys2Proof/Machine/Schedule.lean ====
section
/-! DEFINITION. Key expansion (40_aes_functions.md R87 to R92). -/

namespace Sys2Proof.Machine

/-- R87: `SBOX` on each byte of a word. -/
def subWord (w : Word) : Word :=
  wordOf (sbox (byteOf w 0)) (sbox (byteOf w 1)) (sbox (byteOf w 2)) (sbox (byteOf w 3))

/-- R87: a word rotated left by one byte. -/
def rotWord (w : Word) : Word := wordOf (byteOf w 1) (byteOf w 2) (byteOf w 3) (byteOf w 0)

/-- R88: `Rcon[j]`, the word whose first byte is `x^(j-1)` and whose other bytes are zero; `Rcon[0]` is never used. -/
def rcon (j : Nat) : Word := wordOf (xpow 0x01 (j - 1)) 0 0 0

/-- R90: the value `t` that word `i` adds to word `i - Nk`, from word `i - 1`. -/
def expandTemp (nk i : Nat) (prev : Word) : Word :=
  if i % nk = 0 then subWord (rotWord prev) ^^^ rcon (i / nk)
  else if nk = 8 ∧ i % nk = 4 then subWord prev
  else prev

/-- R90: one turn of the second loop: `W[i] <- W[i - Nk] ^ t`. -/
def expandStep (nk i : Nat) (w : Schedule) : Schedule :=
  if h : i < 60 then w.set i (w[i - nk] ^^^ expandTemp nk i (w[i - 1])) else w

/-- R90: `n` turns of the second loop, from word `i` on. -/
def expandLoop (nk : Nat) : (n i : Nat) → Schedule → Schedule
  | 0, _, w => w
  | n + 1, i, w => expandLoop nk n (i + 1) (expandStep nk i w)

/-- R90: the first loop and the zero fill: the words of the key, then zeros. -/
def expandInit (k : List Byte) : Schedule := Vector.ofFn fun i => (packWords k).getD i.val 0

/-- R90: `ExpandEnc(K, Nk)`, the schedule in encryption order: words `Nk .. 4(Nr + 1) - 1` by the recurrence, zeros after. -/
def expandEnc (k : List Byte) (nk : Nat) : Schedule :=
  expandLoop nk (4 * (roundCount nk + 1) - nk) nk (expandInit k)

/-- R91: `InvMixColumn` on the four bytes of a word. -/
def invMixWord (w : Word) : Word :=
  let m := invMixColumn (byteOf w 0) (byteOf w 1) (byteOf w 2) (byteOf w 3)
  wordOf m[0] m[1] m[2] m[3]

/-- R92: word `c` of decryption round key `r`, from the encryption-order schedule. -/
def decryptWord (e : Schedule) (nr r c : Nat) : Word :=
  if 0 < r ∧ r < nr then invMixWord (scheduleWord e (4 * (nr - r) + c)) else scheduleWord e (4 * (nr - r) + c)

/-- R92: an encryption-order schedule of `nr` rounds turned into decryption order: the round keys reversed, `InvMixWord` on
all but the first and the last, the tail zero. -/
def decryptOrder (e : Schedule) (nr : Nat) : Schedule :=
  Vector.ofFn fun i => if i.val / 4 ≤ nr then decryptWord e nr (i.val / 4) (i.val % 4) else 0

/-- R92: `ExpandDec(K, Nk)`, the schedule in decryption order. -/
def expandDec (k : List Byte) (nk : Nat) : Schedule := decryptOrder (expandEnc k nk) (roundCount nk)

end Sys2Proof.Machine
end

