-- ==== Sys2Proof/Machine/Cipher.lean ====
section
/-! DEFINITION. The cipher and the equivalent inverse cipher (40_aes_functions.md R93, R94). -/

namespace Sys2Proof.Machine

/-- R93: the state array after the initial key addition and the full rounds 1 to `r`. -/
def cipherState (b : Block) (w : Schedule) : Nat → Block
  | 0 => addRoundKey b w 0
  | r + 1 => addRoundKey (mixColumns (shiftRows (subBytes (cipherState b w r)))) w (r + 1)

/-- R93: `Cipher(B, W, Nr)`: `Nr` rounds, the last without `MixColumns`. For `Nr` = 0, which no run reaches, the loop over
1 to `Nr - 1` is empty (R19; log entry 10). -/
def cipher (b : Block) (w : Schedule) (nr : Nat) : Block :=
  addRoundKey (shiftRows (subBytes (cipherState b w (nr - 1)))) w nr

/-- R94: the state array of the inverse cipher after the initial key addition and the full rounds 1 to `r`. -/
def eqInvCipherState (b : Block) (d : Schedule) : Nat → Block
  | 0 => addRoundKey b d 0
  | r + 1 => addRoundKey (invMixColumns (invShiftRows (invSubBytes (eqInvCipherState b d r)))) d (r + 1)

/-- R94: `EqInvCipher(B, D, Nr)`, under a decryption-order schedule read in rising order. -/
def eqInvCipher (b : Block) (d : Schedule) (nr : Nat) : Block :=
  addRoundKey (invShiftRows (invSubBytes (eqInvCipherState b d (nr - 1)))) d nr

end Sys2Proof.Machine
end

