-- ==== Sys2Proof/Machine/Flags.lean ====
section
/-! DEFINITION. The error causes (60_exceptions.md R125) and the value of `STATUS` (10_state.md R27). -/

namespace Sys2Proof.Machine

/-- R125: the four synchronous errors. -/
inductive Cause where
  /-- `ERR.KEYLEN`: raised by `KEXP.E`, `KEXP.D` when `klen` is not 16, 24 or 32 (R127). -/
  | invalidKeyLength
  /-- `ERR.NOKEY`: raised by `ENC`, `DEC` when the slot holds no schedule of the order needed (R128). -/
  | noSchedule
  /-- `ERR.ILLCMD`: raised by a `WR` to `CMD` of an illegal command word (R129). -/
  | illegalCommand
  /-- `ERR.ACC`: raised by a non-permitted `WR` or `RD` (R130). -/
  | accessError
  deriving DecidableEq, Repr

/-- R125: the code of a cause, its bit number in `ERR`. -/
def Cause.code : Cause → Nat
  | .invalidKeyLength => 0
  | .noSchedule => 1
  | .illegalCommand => 2
  | .accessError => 3

/-- The `ERR` value with the bit of this cause alone. -/
def Cause.bit (c : Cause) : BitVec 4 := 1#4 <<< c.code

/-- R27, R125: the bit of a cause in the error latch. -/
def State.errBit (c : Cause) (s : State) : Bool := s.err.getLsbD c.code

/-- R27: `STATUS = KVALID | (KDIR << 1) | (NR << 4) | (DVALID << 8) | (ERR << 16)`; every bit not named reads as 0. -/
def State.status (s : State) : Word :=
  (BitVec.ofBool s.kvalid).setWidth 32 ||| (BitVec.ofBool s.kdir).setWidth 32 <<< 1 ||| s.nr.setWidth 32 <<< 4
    ||| (BitVec.ofBool s.dvalid).setWidth 32 <<< 8 ||| s.err.setWidth 32 <<< 16

end Sys2Proof.Machine
end

