-- ==== Sys2Proof/Machine/Ops.lean ====
section
/-! DEFINITION. The named updates of the state: every write of a register goes through one of them, and raising an error is
ONE operation (60_exceptions.md R126). There is no trap entry and no return (R136, R137): `State.raise` saves nothing, changes
no mode and moves control nowhere. -/

namespace Sys2Proof.Machine

/-- R45: `KEY[j] <- v`. -/
def State.setKey (j : Fin 8) (v : Word) (s : State) : State := { s with key := s.key.set j v }

/-- R45: `DIN[j] <- v`. -/
def State.setDin (j : Fin 4) (v : Word) (s : State) : State := { s with din := s.din.set j v }

/-- R110, R115: `DOUT` takes a result, all four words at once, and `DVALID <- 1`. -/
def State.setResult (r : Vector Word 4) (s : State) : State := { s with dout := r, dvalid := true }

/-- R111, R116: a failing block command leaves `DOUT` zero and `DVALID` = 0. -/
def State.clearResult (s : State) : State := { s with dout := Vector.replicate 4 0, dvalid := false }

/-- R100, R101: the schedule slot is replaced as a whole. -/
def State.setSchedule (w : Schedule) (rounds : BitVec 4) (decryptOrder : Bool) (s : State) : State :=
  { s with rk := w, nr := rounds, kdir := decryptOrder, kvalid := true }

/-- R102: a failing key command empties and zeroes the schedule slot. -/
def State.clearSchedule (s : State) : State :=
  { s with rk := Vector.replicate 60 0, nr := 0, kdir := false, kvalid := false }

/-- R120: `KEY` and `DIN` are zeroed. -/
def State.clearOperands (s : State) : State :=
  { s with key := Vector.replicate 8 0, din := Vector.replicate 4 0 }

/-- R126: `raise <Cause>` sets the sticky bit of the cause, which stays set if it already was, and nothing else. -/
def State.raise (c : Cause) (s : State) : State := { s with err := s.err ||| c.bit }

/-- R145: reset gives every piece of state the value of R34. The host's own two lists are not core state (R31) and stay
(log entry 4). -/
def State.resetCore (s : State) : State := { State.reset with pending := s.pending, returned := s.returned }

/-- R46: a `RD` returns a value to the host. -/
def State.giveBack (v : Word) (s : State) : State := { s with returned := s.returned ++ [v] }

/-- R50: the events the core has not yet seen. -/
def State.setPending (es : List Event) (s : State) : State := { s with pending := es }

end Sys2Proof.Machine
end

