-- ==== Sys2Proof/Machine/BlockCommand.lean ====
section
/-! DEFINITION. What `ENC` and `DEC` share (42_encrypt_block.md R110, R111; 43_decrypt_block.md R115, R116). -/

namespace Sys2Proof.Machine

/-- R111, R116: the failure of a block command: `DOUT` and `DVALID` zero, `ERR.NOKEY` set, nothing else written. -/
def failBlockCommand (s : State) : State := s.clearResult.raise .noSchedule

/-- R110, R115: the slot holds a schedule of this order. -/
def State.holdsSchedule (order : Bool) (s : State) : Bool := s.kvalid && s.kdir == order

/-- R110, R115: a block command with this block function, needing a schedule of this order. -/
def blockCommand (run : Block → Schedule → Nat → Block) (order : Bool) (s : State) : State :=
  if s.holdsSchedule order then s.setResult (wordsOf (run (blockOf s.din) s.rk s.nr.toNat)) else failBlockCommand s

end Sys2Proof.Machine
end

