-- ==== Sys2Proof/Machine/DecryptBlock.lean ====
section
/-! DEFINITION. The block decryption command (43_decrypt_block.md R115 to R118). -/

namespace Sys2Proof.Machine

/-- R115: `DEC`. -/
def execDec (s : State) : Host.Outcome State Fault Refusal := .next (blockCommand eqInvCipher true s)

end Sys2Proof.Machine
end

