-- ==== Sys2Proof/Machine/EncryptBlock.lean ====
section
/-! DEFINITION. The block encryption command (42_encrypt_block.md R110 to R113). -/

namespace Sys2Proof.Machine

/-- R110: `ENC`. -/
def execEnc (s : State) : Host.Outcome State Fault Refusal := .next (blockCommand cipher false s)

end Sys2Proof.Machine
end

