-- ==== Sys2Proof/Machine/KeyExpand.lean ====
section
/-! DEFINITION. The key expansion commands (41_key_expand.md R100 to R104). -/

namespace Sys2Proof.Machine

/-- R102: the failure of a key command: the slot is emptied and zeroed, `ERR.KEYLEN` is set, nothing else is written. -/
def failKeyCommand (s : State) : State := s.clearSchedule.raise .invalidKeyLength

/-- R100, R101: a key command with this expansion function and this schedule order. -/
def keyCommand (expand : List Byte → Nat → Schedule) (order : Bool) (klen : BitVec 8) (s : State) : State :=
  if legalKeyLength klen then
    s.setSchedule (expand (keyBytes s.key klen.toNat) (keyWords klen)) (BitVec.ofNat 4 (roundCount (keyWords klen))) order
  else failKeyCommand s

/-- R100: `KEXP.E klen`. -/
def execKexpE (klen : BitVec 8) (s : State) : Host.Outcome State Fault Refusal :=
  .next (keyCommand expandEnc false klen s)

/-- R101: `KEXP.D klen`. -/
def execKexpD (klen : BitVec 8) (s : State) : Host.Outcome State Fault Refusal :=
  .next (keyCommand expandDec true klen s)

end Sys2Proof.Machine
end

