-- ==== Sys2Proof/Machine/Wipe.lean ====
section
/-! DEFINITION. The wipe command (44_wipe.md R120 to R122). -/

namespace Sys2Proof.Machine

/-- R120: `WIPE`: every register that can hold secret material is zeroed; `ERR` keeps its bits. -/
def execWipe (s : State) : Host.Outcome State Fault Refusal := .next s.clearOperands.clearResult.clearSchedule

end Sys2Proof.Machine
end

