-- ==== Sys2Proof/Machine/Dispatch.lean ====
section
/-! DEFINITION. The meaning of every command (30_encoding.md R64): one arm per constructor of `Instr`. -/

namespace Sys2Proof.Machine

def exec (i : Instr) (s : State) : Host.Outcome State Fault Refusal :=
  match i with
  | .kexpE klen => Sys2Proof.Machine.execKexpE klen s
  | .kexpD klen => Sys2Proof.Machine.execKexpD klen s
  | .enc => Sys2Proof.Machine.execEnc s
  | .dec => Sys2Proof.Machine.execDec s
  | .wipe => Sys2Proof.Machine.execWipe s

end Sys2Proof.Machine
end

