-- ==== Sys2Proof/WellFormed.lean ====
section
/-! DEFINITION. Which terms of the syntax are well formed. An `Instr` carries its operand in a field of the operand's own
width (R63), so every `Instr` is well formed; a script line or pseudo-instruction is written with numbers and byte strings
of any size and is checked here (30_encoding.md R68, R69). -/

namespace Sys2Proof

/-- Every value of the 8-bit `klen` field is a legal encoding of a key command (R63), and the other commands have no
operand: no term of `Instr` is ill formed. -/
def Instr.wellFormed : Instr → Bool
  | .kexpE _ => true
  | .kexpD _ => true
  | .enc => true
  | .dec => true
  | .wipe => true

/-- R68: `i` is a word index 0..63, `v` a 32-bit value, `klen` a number 0..255. -/
def Line.wellFormed : Line → Bool
  | .wr i v => decide (i < Config.windowSlots) && decide (v < 2 ^ 32)
  | .rd i _ => decide (i < Config.windowSlots)
  | .kexpE klen => decide (klen < 256)
  | .kexpD klen => decide (klen < 256)
  | .enc => true
  | .dec => true
  | .wipe => true

/-- R69: `LDKEY X` has `X` of 16, 24 or 32 bytes. -/
def legalKeyString (x : List Byte) : Bool := Config.keyLengths.contains x.length

/-- R69: `LDBLK X` has `X` of 16 bytes. -/
def legalBlockString (x : List Byte) : Bool := x.length == Config.blockBytes

/-- R69: a key of illegal length may be cooked (the key command then fails), as long as its length fits `klen` (R68). -/
def cookableKeyString (x : List Byte) : Bool := decide (x.length < 256)

/-- R69: the lengths each pseudo-instruction asks of its byte string. -/
def Pseudo.wellFormed : Pseudo → Bool
  | .ldKey x => legalKeyString x
  | .ldBlk x => legalBlockString x
  | .stBlk _ => true
  | .cookEncryptKey x => cookableKeyString x
  | .cookDecryptKey x => cookableKeyString x
  | .keyExpand _ x => cookableKeyString x
  | .encryptBlock x _ => legalBlockString x
  | .decryptBlock x _ => legalBlockString x

end Sys2Proof
end

