-- ==== Sys2Proof/Decode.lean ====
section
/-! DEFINITION. Decoding and encoding of the 32-bit command word (30_encoding.md R60 to R66). Decode is total and reads no
state (R62); a word that is no command is rejected by the name of the row of R65 it falls under. -/

namespace Sys2Proof

/-- R65: the three ways a 32-bit value is an illegal command word. -/
inductive IllegalWord where
  /-- `op` = 0x00 or `op` in 0x06..0xFF. -/
  | unknownOp
  /-- `op` in {0x01, 0x02} with any of bits 31:16 set. -/
  | keyCommandHighBits
  /-- `op` in {0x03, 0x04, 0x05} with any of bits 31:8 set. -/
  | plainCommandHighBits
  deriving DecidableEq, Repr

/-- What a command word decodes to (R62): one of the five commands, or an illegal command word. -/
inductive Decoded where
  | command (i : Instr)
  | illegal (why : IllegalWord)
  deriving DecidableEq, Repr

/-- R60: bits 7:0, the operation code. -/
def opField (v : Word) : BitVec 8 := v.extractLsb' 0 8

/-- R60, R63: bits 15:8, the key length in bytes. -/
def klenField (v : Word) : BitVec 8 := v.extractLsb' 8 8

/-- R60: bits 31:16, must be zero in every command. -/
def zField (v : Word) : BitVec 16 := v.extractLsb' 16 16

/-- R61: bits 31:8, all must-be-zero bits in format N. -/
def plainHighField (v : Word) : BitVec 24 := v.extractLsb' 8 24

/-- R61: format K. -/
def decodeKey (v : Word) (command : BitVec 8 → Instr) : Decoded :=
  if zField v = 0 then .command (command (klenField v)) else .illegal .keyCommandHighBits

/-- R61: format N. -/
def decodePlain (v : Word) (command : Instr) : Decoded :=
  if plainHighField v = 0 then .command command else .illegal .plainCommandHighBits

/-- R62: the decode of a command word. -/
def decode (v : Word) : Decoded :=
  if opField v = 0x01 then decodeKey v .kexpE
  else if opField v = 0x02 then decodeKey v .kexpD
  else if opField v = 0x03 then decodePlain v .enc
  else if opField v = 0x04 then decodePlain v .dec
  else if opField v = 0x05 then decodePlain v .wipe
  else .illegal .unknownOp

/-- The command a word decodes to, if it is a legal one. -/
def Decoded.toOption : Decoded → Option Instr
  | .command i => some i
  | .illegal _ => none

/-- The instruction decoded from a table-numbered word: a command is one 32-bit word (R60), whose bits above `nbits` are 0.
`CMD` is a 32-bit number with bit positions and no byte order (R44), so the word is handed to `decode` as it is. -/
def decodeTableWord (nbits w : Nat) : Option Instr :=
  (decode (BitVec.ofNat 32 (w % 2 ^ nbits))).toOption

/-- R61: a format K word. -/
def encodeKey (op klen : BitVec 8) : Word := klen.setWidth 32 <<< 8 ||| op.setWidth 32

/-- R61, R64, R100 to R120 ("Encoding"): the command word of a command. -/
def encode : Instr → Word
  | .kexpE klen => encodeKey 0x01 klen
  | .kexpD klen => encodeKey 0x02 klen
  | .enc => 0x00000003
  | .dec => 0x00000004
  | .wipe => 0x00000005

/-- R64: a row of the opcode map; a word `v` spells the row's command exactly when `v & mask = match`. -/
structure TableRow where
  mask : Word
  value : Word
  deriving DecidableEq, Repr

/-- R64: the row of each command. -/
def tableRow : Instr → TableRow
  | .kexpE _ => ⟨0xFFFF00FF, 0x00000001⟩
  | .kexpD _ => ⟨0xFFFF00FF, 0x00000002⟩
  | .enc => ⟨0xFFFFFFFF, 0x00000003⟩
  | .dec => ⟨0xFFFFFFFF, 0x00000004⟩
  | .wipe => ⟨0xFFFFFFFF, 0x00000005⟩

/-- R64: the five rows of the opcode map. -/
def opcodeMap : List TableRow :=
  [tableRow (.kexpE 0), tableRow (.kexpD 0), tableRow .enc, tableRow .dec, tableRow .wipe]

/-- R64: "a word `v` spells the command exactly when `v & mask = match`". -/
def TableRow.spells (r : TableRow) (v : Word) : Bool := v &&& r.mask == r.value

end Sys2Proof
end

