-- ==== Sys2Proof/Machine/Window.lean ====
section
/-! DEFINITION. The register window and the events (20_memory.md R42 to R47; 70_reset_and_hazards.md R145): what each event
does short of running a command, which is Dispatch's. -/

namespace Sys2Proof.Machine

/-- R41: the bus address of word slot `i`. The core decodes the word index only; no rule reads the address. -/
def slotAddress (i : BitVec 6) : Nat := Config.base + 4 * i.toNat

/-- R45: where a `WR` to a word slot goes. -/
inductive WriteTarget where
  | command
  | key (j : Fin 8)
  | din (j : Fin 4)
  | notPermitted
  deriving DecidableEq, Repr

/-- R46: what a `RD` of a word slot reads. -/
inductive ReadTarget where
  | status
  | din (j : Fin 4)
  | dout (j : Fin 4)
  | notPermitted
  deriving DecidableEq, Repr

/-- R42, R45: the write side of the window map. -/
def writeTarget (i : BitVec 6) : WriteTarget :=
  if i.toNat = 0 then .command
  else if h : 4 ≤ i.toNat ∧ i.toNat ≤ 11 then .key ⟨i.toNat - 4, by omega⟩
  else if h : 12 ≤ i.toNat ∧ i.toNat ≤ 15 then .din ⟨i.toNat - 12, by omega⟩
  else .notPermitted

/-- R42, R46: the read side of the window map. -/
def readTarget (i : BitVec 6) : ReadTarget :=
  if i.toNat = 1 then .status
  else if h : 12 ≤ i.toNat ∧ i.toNat ≤ 15 then .din ⟨i.toNat - 12, by omega⟩
  else if h : 16 ≤ i.toNat ∧ i.toNat ≤ 19 then .dout ⟨i.toNat - 16, by omega⟩
  else .notPermitted

/-- What an event comes to: a command to run in a state, or a state reached without one. -/
inductive Action where
  | run (i : Instr) (s : State)
  | done (s : State)
  deriving DecidableEq, Repr

/-- R25, R62, R129: `WR(0, v)`: the command the word spells, or `IllegalCommand`. -/
def writeCommand (v : Word) (s : State) : Action :=
  match decode v with
  | .command i => .run i s
  | .illegal _ => .done (s.raise .illegalCommand)

/-- R45: `WR(i, v)`. -/
def writeSlot (i : BitVec 6) (v : Word) (s : State) : Action :=
  match writeTarget i with
  | .command => writeCommand v s
  | .key j => .done (s.setKey j v)
  | .din j => .done (s.setDin j v)
  | .notPermitted => .done (s.raise .accessError)

/-- R46, R47: the value a `RD` of a slot returns. -/
def readValue (i : BitVec 6) (s : State) : Word :=
  match readTarget i with
  | .status => s.status
  | .din j => s.din[j]
  | .dout j => s.dout[j]
  | .notPermitted => 0

/-- R46, R47: a permitted `RD` changes no state; a non-permitted one sets `ERR.ACC`. -/
def readEffect (i : BitVec 6) (s : State) : State :=
  match readTarget i with
  | .status => s
  | .din _ => s
  | .dout _ => s
  | .notPermitted => s.raise .accessError

/-- R46: `RD(i)`: the value returned is read from the state before the access. -/
def readSlot (i : BitVec 6) (s : State) : State := (readEffect i s).giveBack (readValue i s)

/-- R13: what one event does to the core. -/
def deliver (e : Event) (s : State) : Action :=
  match e with
  | .wr i v => writeSlot i v s
  | .rd i => .done (readSlot i s)
  | .reset => .done s.resetCore

/-- R50, R146: the oldest pending event is delivered; with none pending the core is idle. -/
def nextAction (s : State) : Action :=
  match s.pending with
  | [] => .done s
  | e :: rest => deliver e (s.setPending rest)

/-- R60: the host is about to write this command word to `CMD`, before everything else that is pending. -/
def State.issueCommand (v : Word) (s : State) : State := s.setPending (.wr Slot.cmd v :: s.pending)

end Sys2Proof.Machine
end

