-- ==== Sys2Proof/Machine/Step.lean ====
section
/-! DEFINITION. One step (00_scope.md R13): the core takes the oldest pending event and gives it its full effect, the whole of
any command it triggers included (20_memory.md R50). -/

namespace Sys2Proof.Machine

/-- R13, R50. -/
def step (s : State) : Host.Outcome State Fault Refusal :=
  match nextAction s with
  | .run i t => exec i t
  | .done t => .next t

/-- The state with the command word of `nbits` bits `w` as the next thing the host writes to `CMD`. -/
def State.withFetchWord (s : State) (nbits w : Nat) : State :=
  s.issueCommand (BitVec.ofNat 32 (w % 2 ^ nbits))

end Sys2Proof.Machine
end

