-- ==== Sys2Proof/Machine/Script.lean ====
section
/-! DEFINITION. Host scripts (30_encoding.md R68, R69): the event each line stands for, and the lines each pseudo-instruction
stands for. -/

namespace Sys2Proof.Machine

/-- R68: the event of a line; an ill-formed line has none. The encoding of a line is its transaction alone ("the triple
`(W, i, v)` or `(R, i)`"): the name a `RD` line binds is the script's (`lineName`). -/
def lineEvent (l : Line) : Option Event :=
  if l.wellFormed then
    match l with
    | .wr i v => some (.wr (BitVec.ofNat 6 i) (BitVec.ofNat 32 v))
    | .rd i _ => some (.rd (BitVec.ofNat 6 i))
    | .kexpE klen => some (.wr Slot.cmd (encode (.kexpE (BitVec.ofNat 8 klen))))
    | .kexpD klen => some (.wr Slot.cmd (encode (.kexpD (BitVec.ofNat 8 klen))))
    | .enc => some (.wr Slot.cmd (encode .enc))
    | .dec => some (.wr Slot.cmd (encode .dec))
    | .wipe => some (.wr Slot.cmd (encode .wipe))
  else none

/-- R69: `WR` lines that put the words of a byte string into the slots from `base` on, in rising order. -/
def loadLines (base : Nat) (x : List Byte) : List Line :=
  (packWords x).mapIdx fun j w => .wr (base + j) w.toNat

/-- R69: `LDKEY X`; for a key of illegal length "the `LDKEY` part may be left out", and is (log entry 9). -/
def loadKeyLines (x : List Byte) : List Line := if legalKeyString x then loadLines 4 x else []

/-- R69: `STBLK -> Y`. -/
def storeBlockLines (y : String) : List Line :=
  [.rd 16 (y ++ "0"), .rd 17 (y ++ "1"), .rd 18 (y ++ "2"), .rd 19 (y ++ "3")]

/-- R69: `cook_encrypt_key X`. -/
def cookEncryptLines (x : List Byte) : List Line := loadKeyLines x ++ [.kexpE x.length]

/-- R69: `cook_decrypt_key X`. -/
def cookDecryptLines (x : List Byte) : List Line := loadKeyLines x ++ [.kexpD x.length]

/-- R69: the lines a pseudo-instruction stands for. -/
def pseudoLines : Pseudo → List Line
  | .ldKey x => loadKeyLines x
  | .ldBlk x => loadLines 12 x
  | .stBlk y => storeBlockLines y
  | .cookEncryptKey x => cookEncryptLines x
  | .cookDecryptKey x => cookDecryptLines x
  | .keyExpand forDecryption x => if forDecryption then cookDecryptLines x else cookEncryptLines x
  | .encryptBlock x y => loadLines 12 x ++ [.enc] ++ storeBlockLines y
  | .decryptBlock x y => loadLines 12 x ++ [.dec] ++ storeBlockLines y

/-- R150: the events of a script, in order; an ill-formed line stops it from being a script. -/
def scriptEvents (ls : List Line) : Option (List Event) := ls.mapM lineEvent

/-- R68: the name a line binds the result of its `RD` to; the other lines bind none. -/
def lineName : Line → Option String
  | .wr _ _ => none
  | .rd _ name => some name
  | .kexpE _ => none
  | .kexpD _ => none
  | .enc => none
  | .dec => none
  | .wipe => none

/-- R68: the names a script binds, in the order of its `RD` lines. -/
def boundNames (ls : List Line) : List String := ls.filterMap lineName

/-- R69: the name `Y` of the block a pseudo-instruction gives out. -/
def pseudoOutput : Pseudo → Option String
  | .ldKey _ => none
  | .ldBlk _ => none
  | .stBlk y => some y
  | .cookEncryptKey _ => none
  | .cookDecryptKey _ => none
  | .keyExpand _ _ => none
  | .encryptBlock _ y => some y
  | .decryptBlock _ y => some y

end Sys2Proof.Machine
end

