-- ==== Sys2Proof/Machine/ScriptRun.lean ====
section
/-! DEFINITION. Running a host script (30_encoding.md R68, R69; 70_reset_and_hazards.md R150): its final state, and the values
its `RD` lines bind to their names, by which the end state is described. -/

namespace Sys2Proof.Machine

/-- R150: what a run of a script leaves: "its final state and the values its `RD` lines returned". -/
structure ScriptRun where
  /-- The state when the last transaction of the script has completed. -/
  finalState : State
  /-- R68: each `RD` line's name with the result bound to it, in the order of the lines. -/
  bound : List (String × Word)
  deriving DecidableEq, Repr

/-- R68: the values returned since `before` many, each bound to the name of its `RD` line. -/
def bindResults (ls : List Line) (before : Nat) (t : State) : List (String × Word) :=
  (boundNames ls).zip (t.returned.drop before)

/-- R150: a script run from a state, as the host's whole list of transactions; an ill-formed line has no transaction, and a
script with one has no run (log entry 9). -/
def runScript (ls : List Line) (s : State) : Option ScriptRun :=
  match scriptEvents ls with
  | none => none
  | some es =>
    match core.run es.length (s.setPending es) with
    | .next t => some ⟨t, bindResults ls s.returned.length t⟩
    | .fault _ => none
    | .refused _ => none

/-- R68: the value a name stands for; a name bound twice stands for the later value (log entry 9). -/
def lookupName (name : String) : List (String × Word) → Option Word
  | [] => none
  | (n, v) :: rest => (lookupName name rest).orElse fun _ => if n = name then some v else none

/-- R68: the value bound to a name at the end of the run. -/
def ScriptRun.valueOf (name : String) (r : ScriptRun) : Option Word := lookupName name r.bound

/-- R69: "`Y` is the byte string of `Y0..Y3`": the 16 bytes of the four words, under the packing of R18. -/
def ScriptRun.byteString (y : String) (r : ScriptRun) : Option (List Byte) :=
  match r.valueOf (y ++ "0"), r.valueOf (y ++ "1"), r.valueOf (y ++ "2"), r.valueOf (y ++ "3") with
  | some w0, some w1, some w2, some w3 => some (fileBytes [w0, w1, w2, w3] Config.blockBytes)
  | _, _, _, _ => none

/-- R69: a run of a pseudo-instruction, with the byte string it gives out (none for those that give none out). -/
def runPseudo (p : Pseudo) (s : State) : Option (ScriptRun × Option (List Byte)) :=
  (runScript (pseudoLines p) s).map fun r => (r, (pseudoOutput p).bind fun y => r.byteString y)

end Sys2Proof.Machine
end

