-- ==== Sys2Proof/Safety.lean ====
section
/-! DEFINITION. What claims are stated in terms of: the invariants I1 to I4 of 10_state.md R37, a clean run
(60_exceptions.md R131), a wiped state (44_wipe.md R122). -/

namespace Sys2Proof.Machine

/-- R37 I1: with no schedule, the tags and the store are zero. -/
def State.emptySlotZero (s : State) : Prop :=
  s.kvalid = false → s.kdir = false ∧ s.nr = 0 ∧ s.rk = Vector.replicate 60 0

/-- R37 I2: with a schedule, `NR` is 10, 12 or 14 and the tail of the store is zero. -/
def State.scheduleShaped (s : State) : Prop :=
  s.kvalid = true → (s.nr = 10 ∨ s.nr = 12 ∨ s.nr = 14) ∧
    ∀ (i : Nat) (h : i < 60), 4 * s.nr.toNat + 4 ≤ i → s.rk[i] = 0

/-- R37 I3, C10: the store holds the expansion, in the order `KDIR` says, of some raw key of `4(NR - 6)` bytes. -/
def State.scheduleDerived (s : State) : Prop :=
  s.kvalid = true → ∃ k : List Byte, k.length = 4 * (s.nr.toNat - 6) ∧
    s.rk = (if s.kdir then expandDec else expandEnc) k (s.nr.toNat - 6)

/-- R37 I4: with no result, `DOUT` is zero. -/
def State.noResultZero (s : State) : Prop :=
  s.dvalid = false → s.dout = Vector.replicate 4 0

/-- R37: the invariants I1 to I4 of every reachable state. -/
structure State.Inv (s : State) : Prop where
  emptySlotZero : s.emptySlotZero
  scheduleShaped : s.scheduleShaped
  scheduleDerived : s.scheduleDerived
  noResultZero : s.noResultZero

/-- R131: no error has occurred since reset. -/
abbrev State.clean (s : State) : Prop := s.err = 0

/-- R122: "ends wiped": `KEY`, `DIN`, `DOUT`, `RK` are zero and `KVALID` = `DVALID` = 0. -/
abbrev State.wiped (s : State) : Prop :=
  s.key = Vector.replicate 8 0 ∧ s.din = Vector.replicate 4 0 ∧ s.dout = Vector.replicate 4 0 ∧
    s.rk = Vector.replicate 60 0 ∧ s.kvalid = false ∧ s.dvalid = false

/-- R150: every event of the list has been delivered. -/
abbrev State.finished (s : State) : Prop := s.pending = []

end Sys2Proof.Machine
end

