-- ==== Sys2Proof/Certificates/Slice0/Obligations.lean ====
section
/-! DEFINITION. The statements for the provers. Each formalises rules of spec/ (its docstring names them) over every state and
operand; none speaks of a program. -/

open Sys2Proof Sys2Proof.Machine

/-! ### Encoding (30_encoding.md) -/

/-- Decode of encode is the identity on every well-formed command, every `klen` included (30_encoding.md sections 1 to 3). -/
def Obligations.DecodeOfEncode : Prop :=
  ∀ i : Instr, i.wellFormed = true → decode (encode i) = .command i

/-- A word that decodes to a command is that command's encoding: no second spelling (30_encoding.md sections 1 to 4). -/
def Obligations.EncodeOfDecode : Prop :=
  ∀ (v : Word) (i : Instr), decode v = .command i → encode i = v

/-- R64: a word spells a command exactly when masking it gives the command's match; the five patterns are pairwise disjoint;
the command words in use. -/
def Obligations.OpcodeMapSpellsCommands : Prop :=
  (∀ v : Word,
    ((∃ klen, decode v = .command (.kexpE klen)) ↔ v &&& 0xFFFF00FF = 0x00000001) ∧
    ((∃ klen, decode v = .command (.kexpD klen)) ↔ v &&& 0xFFFF00FF = 0x00000002) ∧
    (decode v = .command .enc ↔ v &&& 0xFFFFFFFF = 0x00000003) ∧
    (decode v = .command .dec ↔ v &&& 0xFFFFFFFF = 0x00000004) ∧
    (decode v = .command .wipe ↔ v &&& 0xFFFFFFFF = 0x00000005) ∧
    opcodeMap.Pairwise (fun r q => ¬ (r.spells v = true ∧ q.spells v = true))) ∧
  opcodeMap = [⟨0xFFFF00FF, 0x00000001⟩, ⟨0xFFFF00FF, 0x00000002⟩, ⟨0xFFFFFFFF, 0x00000003⟩,
    ⟨0xFFFFFFFF, 0x00000004⟩, ⟨0xFFFFFFFF, 0x00000005⟩] ∧
  encode (.kexpE 16) = 0x00001001 ∧ encode (.kexpE 24) = 0x00001801 ∧ encode (.kexpE 32) = 0x00002001 ∧
  encode (.kexpD 16) = 0x00001002 ∧ encode (.kexpD 24) = 0x00001802 ∧ encode (.kexpD 32) = 0x00002002 ∧
  encode .enc = 0x00000003 ∧ encode .dec = 0x00000004 ∧ encode .wipe = 0x00000005

/-- R62: what `WR(0, v)` executes, arm by arm, by the number the word spells. -/
def Obligations.CommandWriteDecodeArms : Prop :=
  ∀ (s : State) (v : Word) (rest : List Event), s.pending = .wr 0 v :: rest →
    step s =
      (if v.toNat % 256 = 1 ∧ v.toNat / 65536 = 0 then
        exec (.kexpE (BitVec.ofNat 8 (v.toNat / 256))) { s with pending := rest }
      else if v.toNat % 256 = 2 ∧ v.toNat / 65536 = 0 then
        exec (.kexpD (BitVec.ofNat 8 (v.toNat / 256))) { s with pending := rest }
      else if v.toNat % 256 = 3 ∧ v.toNat / 256 = 0 then exec .enc { s with pending := rest }
      else if v.toNat % 256 = 4 ∧ v.toNat / 256 = 0 then exec .dec { s with pending := rest }
      else if v.toNat % 256 = 5 ∧ v.toNat / 256 = 0 then exec .wipe { s with pending := rest }
      else .next { s with pending := rest, err := s.err ||| 0b0100#4 })

/-- R65: which words are illegal, that writing one sets `ERR.ILLCMD` and nothing else, that the all-zero word is one, and
that 515 words are legal. -/
def Obligations.IllegalWordsOnlyLatch : Prop :=
  (∀ v : Word, (∃ r, decode v = .illegal r) ↔
    (v.toNat % 256 = 0 ∨ 6 ≤ v.toNat % 256 ∨
      ((v.toNat % 256 = 1 ∨ v.toNat % 256 = 2) ∧ v.toNat / 65536 ≠ 0) ∨
      ((v.toNat % 256 = 3 ∨ v.toNat % 256 = 4 ∨ v.toNat % 256 = 5) ∧ v.toNat / 256 ≠ 0))) ∧
  (∀ (s : State) (v : Word) (rest : List Event) (r : IllegalWord), s.pending = .wr 0 v :: rest → decode v = .illegal r →
    step s = .next { s with pending := rest, err := s.err ||| 0b0100#4 }) ∧
  (∃ r, decode 0x00000000 = .illegal r) ∧
  {v : Word | ∃ i, decode v = .command i}.ncard = 515

/-- Words written out from R61 and R64 decode to the commands they stand for. -/
def Obligations.HandWrittenWordsDecode : Prop :=
  decode 0b00000000000000000001000000000001#32 = .command (.kexpE 16) ∧
  decode 0b00000000000000001111111100000001#32 = .command (.kexpE 255) ∧
  decode 0b00000000000000000010000000000010#32 = .command (.kexpD 32) ∧
  decode 0b00000000000000000000000000000011#32 = .command .enc ∧
  decode 0b00000000000000000000000000000100#32 = .command .dec ∧
  decode 0b00000000000000000000000000000101#32 = .command .wipe

/-- A step runs the decoded command: with its word at the head of the host's transactions, in the state without it; and the
host's placing of a word makes the next step run exactly it (00_scope.md section 5; log entries 1 and 3). -/
def Obligations.StepRunsDecodedCommand : Prop :=
  (∀ (s : State) (v : Word) (rest : List Event) (i : Instr), s.pending = .wr 0 v :: rest → decode v = .command i →
    i.wellFormed = true → step s = exec i { s with pending := rest }) ∧
  (∀ (s : State) (v : Word) (i : Instr), decode v = .command i → step (s.withFetchWord 32 v.toNat) = exec i s)

/-- 30_encoding.md section 5 (R68): the event of each command line and of `WR` and `RD` lines, and the slot names. -/
def Obligations.ScriptLinesAreTransactions : Prop :=
  (∀ i v : Nat, i < 64 → v < 2 ^ 32 → lineEvent (.wr i v) = some (.wr (BitVec.ofNat 6 i) (BitVec.ofNat 32 v))) ∧
  (∀ (i : Nat) (name : String), i < 64 → lineEvent (.rd i name) = some (.rd (BitVec.ofNat 6 i))) ∧
  (∀ klen : Nat, klen < 256 →
    lineEvent (.kexpE klen) = some (.wr 0 (BitVec.ofNat 32 (klen <<< 8 ||| 0x01))) ∧
    lineEvent (.kexpD klen) = some (.wr 0 (BitVec.ofNat 32 (klen <<< 8 ||| 0x02)))) ∧
  lineEvent .enc = some (.wr 0 0x00000003) ∧ lineEvent .dec = some (.wr 0 0x00000004) ∧
  lineEvent .wipe = some (.wr 0 0x00000005) ∧
  Slot.cmd.toNat = 0 ∧ Slot.status.toNat = 1 ∧ (∀ j : Fin 8, (Slot.key j).toNat = 4 + j.val) ∧
  (∀ j : Fin 4, (Slot.din j).toNat = 12 + j.val ∧ (Slot.dout j).toNat = 16 + j.val)

/-- 30_encoding.md section 5 (R69): the lines of each pseudo-instruction, for every byte string of a legal length; for a key of
illegal length the `LDKEY` part is left out (log entry 9). -/
def Obligations.PseudoInstructionExpansion : Prop :=
  (∀ (x : List Byte) (n : Nat), x.length = 4 * n → n = 4 ∨ n = 6 ∨ n = 8 →
    let load := (List.range n).map fun j => Line.wr (4 + j)
      (wordOf (x.getD (4 * j) 0) (x.getD (4 * j + 1) 0) (x.getD (4 * j + 2) 0) (x.getD (4 * j + 3) 0)).toNat
    pseudoLines (.ldKey x) = load ∧ pseudoLines (.cookEncryptKey x) = load ++ [.kexpE (4 * n)] ∧
    pseudoLines (.cookDecryptKey x) = load ++ [.kexpD (4 * n)] ∧
    pseudoLines (.keyExpand false x) = load ++ [.kexpE (4 * n)] ∧ pseudoLines (.keyExpand true x) = load ++ [.kexpD (4 * n)]) ∧
  (∀ x : List Byte, x.length ≠ 16 → x.length ≠ 24 → x.length ≠ 32 →
    pseudoLines (.cookEncryptKey x) = [.kexpE x.length] ∧ pseudoLines (.cookDecryptKey x) = [.kexpD x.length]) ∧
  (∀ (x : List Byte) (y : String), x.length = 16 →
    let load := (List.range 4).map fun j => Line.wr (12 + j)
      (wordOf (x.getD (4 * j) 0) (x.getD (4 * j + 1) 0) (x.getD (4 * j + 2) 0) (x.getD (4 * j + 3) 0)).toNat
    let store := [Line.rd 16 (y ++ "0"), .rd 17 (y ++ "1"), .rd 18 (y ++ "2"), .rd 19 (y ++ "3")]
    pseudoLines (.ldBlk x) = load ∧ pseudoLines (.stBlk y) = store ∧
    pseudoLines (.encryptBlock x y) = load ++ [.enc] ++ store ∧ pseudoLines (.decryptBlock x y) = load ++ [.dec] ++ store)

/-! ### Reset, the window and the order of events (20_memory.md, 70_reset_and_hazards.md) -/

/-- R34: after reset, in the state a run starts from and after a reset event in any state, every piece of state is zero; with
no error latched, `WIPE` reaches the state reset does (both leave the host's own lists, log entry 4). -/
def Obligations.ResetLeavesZero : Prop :=
  (∀ (s : State) (rest : List Event), s.pending = .reset :: rest →
    ∃ t, step s = .next t ∧ t.key = Vector.replicate 8 0 ∧ t.din = Vector.replicate 4 0 ∧ t.dout = Vector.replicate 4 0 ∧
      t.rk = Vector.replicate 60 0 ∧ t.kvalid = false ∧ t.kdir = false ∧ t.dvalid = false ∧ t.nr = 0 ∧ t.err = 0 ∧
      t.status = 0x00000000) ∧
  State.reset.key = Vector.replicate 8 0 ∧ State.reset.din = Vector.replicate 4 0 ∧
    State.reset.dout = Vector.replicate 4 0 ∧ State.reset.rk = Vector.replicate 60 0 ∧ State.reset.kvalid = false ∧
    State.reset.kdir = false ∧ State.reset.dvalid = false ∧ State.reset.nr = 0 ∧ State.reset.err = 0 ∧
    State.reset.status = 0x00000000 ∧
  (∀ (s t : State) (rest : List Event), s.pending = .reset :: rest → s.err = 0 → step s = .next t →
    exec .wipe { s with pending := rest } = .next t)

/-- 70_reset_and_hazards.md section 1 (R146): what the host sees right after reset; the last clause, that an idle step changes
nothing, is the model's choice (log entry 1). -/
def Obligations.ResetAsTheHostSeesIt : Prop :=
  (∀ (i : BitVec 6) (rest : List Event), i.toNat = 1 ∨ (12 ≤ i.toNat ∧ i.toNat ≤ 19) →
    step { State.reset with pending := .rd i :: rest } =
      .next { State.reset with pending := rest, returned := [0x00000000] }) ∧
  State.reset.kvalid = false ∧ State.reset.dvalid = false ∧ State.reset.err = 0 ∧
  step State.reset = .next State.reset

/-- R45: what `WR(i, v)` does, by case on `i`; a write to `KEY` or `DIN` changes that one register and nothing
else; a `WR` returns nothing. -/
def Obligations.WriteTransactionEffect : Prop :=
  ∀ (s : State) (i : BitVec 6) (v : Word) (rest : List Event), s.pending = .wr i v :: rest →
    (i.toNat = 0 → step s = (match decode v with
      | .command c => exec c { s with pending := rest }
      | .illegal _ => .next { s with pending := rest, err := s.err ||| 0b0100#4 })) ∧
    (∀ j : Fin 8, i.toNat = 4 + j.val → step s = .next { s with pending := rest, key := s.key.set j v }) ∧
    (∀ j : Fin 4, i.toNat = 12 + j.val → step s = .next { s with pending := rest, din := s.din.set j v }) ∧
    (i.toNat ≠ 0 → ¬ (4 ≤ i.toNat ∧ i.toNat ≤ 15) →
      step s = .next { s with pending := rest, err := s.err ||| 0b1000#4 }) ∧
    (∀ t : State, step s = .next t → t.returned = s.returned)

/-- R46: what `RD(i)` returns and does, by case on `i`; the last clause needs invariant I4 of R37, which every reachable state
has (`StepKeepsInvariants`). -/
def Obligations.ReadTransactionEffect : Prop :=
  ∀ (s : State) (i : BitVec 6) (rest : List Event), s.pending = .rd i :: rest →
    (i.toNat = 1 → step s = .next { s with pending := rest, returned := s.returned ++ [s.status] }) ∧
    (∀ j : Fin 4, i.toNat = 12 + j.val → step s = .next { s with pending := rest, returned := s.returned ++ [s.din[j]] }) ∧
    (∀ j : Fin 4, i.toNat = 16 + j.val → step s = .next { s with pending := rest, returned := s.returned ++ [s.dout[j]] }) ∧
    (i.toNat ≠ 1 → ¬ (12 ≤ i.toNat ∧ i.toNat ≤ 19) →
      step s = .next { s with pending := rest, err := s.err ||| 0b1000#4, returned := s.returned ++ [0x00000000] }) ∧
    (s.noResultZero → s.dvalid = false → 16 ≤ i.toNat → i.toNat ≤ 19 →
      step s = .next { s with pending := rest, returned := s.returned ++ [0x00000000] })

/-- R47, R130: the non-permitted accesses set `ERR.ACC` and have no other effect; a non-permitted `RD` returns zero. -/
def Obligations.NonPermittedAccessOnlyLatches : Prop :=
  ∀ (s : State) (i : BitVec 6) (rest : List Event),
    (∀ v : Word, s.pending = .wr i v :: rest →
      i.toNat = 1 ∨ i.toNat = 2 ∨ i.toNat = 3 ∨ (16 ≤ i.toNat ∧ i.toNat ≤ 63) →
      step s = .next { s with pending := rest, err := s.err ||| 0b1000#4 }) ∧
    (s.pending = .rd i :: rest →
      i.toNat = 0 ∨ i.toNat = 2 ∨ i.toNat = 3 ∨ (4 ≤ i.toNat ∧ i.toNat ≤ 11) ∨ (20 ≤ i.toNat ∧ i.toNat ≤ 63) →
      step s = .next { s with pending := rest, err := s.err ||| 0b1000#4, returned := s.returned ++ [0x00000000] })

/-- 10_state.md section 4 (R27): the fields of the value `RD(1)` returns, its reserved bits, that the read changes nothing, that
a write to slot 1 is non-permitted, and the worked values. -/
def Obligations.StatusFields : Prop :=
  (∀ s : State,
    s.status.getLsbD 0 = s.kvalid ∧ s.status.getLsbD 1 = s.kdir ∧ s.status.extractLsb' 2 2 = 0 ∧
    s.status.extractLsb' 4 4 = s.nr ∧ s.status.getLsbD 8 = s.dvalid ∧ s.status.extractLsb' 9 7 = 0 ∧
    s.status.extractLsb' 16 4 = s.err ∧ s.status.extractLsb' 20 12 = 0) ∧
  (∀ (s : State) (rest : List Event), s.pending = .rd 1 :: rest →
    step s = .next { s with pending := rest, returned := s.returned ++ [s.status] }) ∧
  (∀ (s : State) (v : Word) (rest : List Event), s.pending = .wr 1 v :: rest →
    step s = .next { s with pending := rest, err := s.err ||| 0b1000#4 }) ∧
  State.reset.status = 0x00000000 ∧
  (∃ t, exec (.kexpE 16) State.reset = .next t ∧ t.status = 0x000000A1) ∧
  (∃ t, exec (.kexpD 32) State.reset = .next t ∧ t.status = 0x000000E3) ∧
  (∃ t u, exec (.kexpE 24) State.reset = .next t ∧ exec .enc t = .next u ∧ u.status = 0x000001C1) ∧
  (∃ t, exec (.kexpE 17) State.reset = .next t ∧ t.status = 0x00010000)

/-- R43: where byte `k` of the key, of the input block and of the output block lies, and the example. -/
def Obligations.BytePackingOfRegisters : Prop :=
  (∀ (key : Vector Word 8) (n k : Nat) (h : k < 32), n ≤ 32 → k < n →
    (keyBytes key n)[k]? = some ((key[k / 4]).extractLsb' (24 - 8 * (k % 4)) 8)) ∧
  (∀ (din : Vector Word 4) (k : Nat) (h : k < 16), (blockOf din)[k] = (din[k / 4]).extractLsb' (24 - 8 * (k % 4)) 8) ∧
  (∀ (b : Block) (k : Nat) (h : k < 16), ((wordsOf b)[k / 4]).extractLsb' (24 - 8 * (k % 4)) 8 = b[k]) ∧
  wordsOf #v[0x00, 0x11, 0x22, 0x33, 0x44, 0x55, 0x66, 0x77, 0x88, 0x99, 0xaa, 0xbb, 0xcc, 0xdd, 0xee, 0xff] =
    #v[0x00112233, 0x44556677, 0x8899aabb, 0xccddeeff]

/-- A step takes exactly the oldest of the pending events and leaves the later ones. This is the MODEL'S CHOICE: that the
events stand in a list of the state (log entry 1), and that a reset is one of them and leaves those after it (log entry 4).
For host transactions, and for them alone, it is how the model keeps the order 20_memory.md section 5 gives them. -/
def Obligations.EventsTakenInIssueOrder : Prop :=
  ∀ (s t : State) (e : Event) (rest : List Event), s.pending = e :: rest → step s = .next t → t.pending = rest

/-- Every transaction completes: no step faults or is refused (60_exceptions.md R126, R136; 70_reset_and_hazards.md R160). -/
def Obligations.EveryStepCompletes : Prop :=
  ∀ s : State, ∃ t, step s = .next t

/-- 70_reset_and_hazards.md section 2 (R150): every finite list of transactions has a final state, with nothing in flight. That
the list stands in the state, and that resets may stand in it, is the model's choice (log entries 1 and 4). -/
def Obligations.EveryEventListHasFinalState : Prop :=
  ∀ s : State, ∃ t : State, core.run s.pending.length s = .next t ∧ t.pending = []

/-- Writes to two different registers among `KEY` and `DIN` may come in either order (30_encoding.md section 5, R69). -/
def Obligations.OperandWritesCommute : Prop :=
  ∀ (s : State) (i j : BitVec 6) (v w : Word) (rest : List Event), i ≠ j → 4 ≤ i.toNat → i.toNat ≤ 15 → 4 ≤ j.toNat →
    j.toNat ≤ 15 →
    ∃ t : State, core.run 2 { s with pending := .wr i v :: .wr j w :: rest } = .next t ∧
      core.run 2 { s with pending := .wr j w :: .wr i v :: rest } = .next t ∧ t.pending = rest

/-! ### The commands (41 to 44) -/

/-- R100: `KEXP.E`, in both branches of its pseudocode, its encoding, and its worked example. -/
def Obligations.KeyExpandEncryptResult : Prop :=
  (∀ (klen : BitVec 8) (s : State), klen = 16 ∨ klen = 24 ∨ klen = 32 →
    exec (.kexpE klen) s = .next { s with
      rk := expandEnc (keyBytes s.key klen.toNat) (klen.toNat / 4), nr := BitVec.ofNat 4 (klen.toNat / 4 + 6),
      kdir := false, kvalid := true }) ∧
  (∀ (klen : BitVec 8) (s : State), ¬ (klen = 16 ∨ klen = 24 ∨ klen = 32) →
    exec (.kexpE klen) s = .next { s with
      err := s.err ||| 0b0001#4, rk := Vector.replicate 60 0, kvalid := false, kdir := false, nr := 0 }) ∧
  (∀ klen : BitVec 8, decode (klen.setWidth 32 <<< 8 ||| 0x01) = .command (.kexpE klen)) ∧
  (∃ t : State, core.run 2 { State.reset with key := #v[0x00010203, 0x04050607, 0x08090a0b, 0x0c0d0e0f, 0, 0, 0, 0],
                                              pending := [.wr 0 0x00001001, .rd 1] } = .next t ∧
    t.rk.toList.take 8 = [0x00010203, 0x04050607, 0x08090a0b, 0x0c0d0e0f, 0xd6aa74fd, 0xd2af72fa, 0xdaa678f1, 0xd6ab76fe] ∧
    t.rk.toList.drop 40 = [0x13111d7f, 0xe3944a17, 0xf307a78b, 0x4d2b30c5] ++ List.replicate 16 0 ∧
    t.nr = 10 ∧ t.kdir = false ∧ t.kvalid = true ∧ t.returned = [0x000000A1])

/-- R101: `KEXP.D`, in both branches of its pseudocode, its encoding, and its worked example. -/
def Obligations.KeyExpandDecryptResult : Prop :=
  (∀ (klen : BitVec 8) (s : State), klen = 16 ∨ klen = 24 ∨ klen = 32 →
    exec (.kexpD klen) s = .next { s with
      rk := expandDec (keyBytes s.key klen.toNat) (klen.toNat / 4), nr := BitVec.ofNat 4 (klen.toNat / 4 + 6),
      kdir := true, kvalid := true }) ∧
  (∀ (klen : BitVec 8) (s : State), ¬ (klen = 16 ∨ klen = 24 ∨ klen = 32) →
    exec (.kexpD klen) s = .next { s with
      err := s.err ||| 0b0001#4, rk := Vector.replicate 60 0, kvalid := false, kdir := false, nr := 0 }) ∧
  (∀ klen : BitVec 8, decode (klen.setWidth 32 <<< 8 ||| 0x02) = .command (.kexpD klen)) ∧
  (∃ t : State, core.run 2 { State.reset with key := #v[0x00010203, 0x04050607, 0x08090a0b, 0x0c0d0e0f, 0, 0, 0, 0],
                                              pending := [.wr 0 0x00001002, .rd 1] } = .next t ∧
    t.rk.toList.take 8 = [0x13111d7f, 0xe3944a17, 0xf307a78b, 0x4d2b30c5, 0x13aa29be, 0x9c8faff6, 0xf770f580, 0x00f7bf03] ∧
    t.rk.toList.drop 40 = [0x00010203, 0x04050607, 0x08090a0b, 0x0c0d0e0f] ++ List.replicate 16 0 ∧
    t.nr = 10 ∧ t.kdir = true ∧ t.kvalid = true ∧ t.returned = [0x000000A3])

/-- R102: a key command of either kind with an illegal `klen` sets `ERR.KEYLEN`, empties and zeroes the slot, and writes
nothing else; a legal `klen` succeeds in every state; with its worked example. -/
def Obligations.KeyCommandBadLength : Prop :=
  (∀ (klen : BitVec 8) (i : Instr) (s : State), i = .kexpE klen ∨ i = .kexpD klen → klen ≠ 16 → klen ≠ 24 → klen ≠ 32 →
    exec i s = .next { s with
      err := s.err ||| 0b0001#4, rk := Vector.replicate 60 0, kvalid := false, kdir := false, nr := 0 }) ∧
  (∀ (klen : BitVec 8) (s : State), klen = 16 ∨ klen = 24 ∨ klen = 32 →
    ∃ t u, exec (.kexpE klen) s = .next t ∧ t.kvalid = true ∧ exec (.kexpD klen) s = .next u ∧ u.kvalid = true) ∧
  core.run 2 { State.reset with pending := [.wr 0 0x00001101, .rd 1] } =
    .next { State.reset with err := 0b0001#4, returned := [0x00010000] }

/-- 41_key_expand.md section 4 (R103 item 1, R104): what a key command leaves in the slot depends on `klen` and on the first
`klen / 4` key registers alone. -/
def Obligations.ScheduleDependsOnKeyBytesOnly : Prop :=
  ∀ (klen : BitVec 8) (i : Instr) (s t s' t' : State), i = .kexpE klen ∨ i = .kexpD klen →
    (∀ (j : Nat) (h : j < 8), j < klen.toNat / 4 → s.key[j] = t.key[j]) → exec i s = .next s' → exec i t = .next t' →
    s'.rk = t'.rk ∧ s'.kvalid = t'.kvalid ∧ s'.kdir = t'.kdir ∧ s'.nr = t'.nr

/-- R110: `ENC`, in both branches of its pseudocode, its encoding, and its worked example. -/
def Obligations.EncryptBlockResult : Prop :=
  (∀ s : State, s.kvalid = true → s.kdir = false →
    exec .enc s = .next { s with dout := wordsOf (cipher (blockOf s.din) s.rk s.nr.toNat), dvalid := true }) ∧
  (∀ s : State, ¬ (s.kvalid = true ∧ s.kdir = false) →
    exec .enc s = .next { s with err := s.err ||| 0b0010#4, dout := Vector.replicate 4 0, dvalid := false }) ∧
  decode 0x00000003 = .command .enc ∧
  (∃ t : State, core.run 3 { State.reset with key := #v[0x00010203, 0x04050607, 0x08090a0b, 0x0c0d0e0f, 0, 0, 0, 0],
                                              din := #v[0x00112233, 0x44556677, 0x8899aabb, 0xccddeeff],
                                              pending := [.wr 0 0x00001001, .wr 0 0x00000003, .rd 1] } = .next t ∧
    t.dout = #v[0x69c4e0d8, 0x6a7b0430, 0xd8cdb780, 0x70b4c55a] ∧ t.dvalid = true ∧ t.returned = [0x000001A1])

/-- R115: `DEC`, in both branches of its pseudocode, its encoding, and its worked example with the values inside the run. -/
def Obligations.DecryptBlockResult : Prop :=
  (∀ s : State, s.kvalid = true → s.kdir = true →
    exec .dec s = .next { s with dout := wordsOf (eqInvCipher (blockOf s.din) s.rk s.nr.toNat), dvalid := true }) ∧
  (∀ s : State, ¬ (s.kvalid = true ∧ s.kdir = true) →
    exec .dec s = .next { s with err := s.err ||| 0b0010#4, dout := Vector.replicate 4 0, dvalid := false }) ∧
  decode 0x00000004 = .command .dec ∧
  (∃ t : State, core.run 3 { State.reset with key := #v[0x00010203, 0x04050607, 0x08090a0b, 0x0c0d0e0f, 0, 0, 0, 0],
                                              din := #v[0x69c4e0d8, 0x6a7b0430, 0xd8cdb780, 0x70b4c55a],
                                              pending := [.wr 0 0x00001002, .wr 0 0x00000004, .rd 1] } = .next t ∧
    t.dout = #v[0x00112233, 0x44556677, 0x8899aabb, 0xccddeeff] ∧ t.dvalid = true ∧ t.returned = [0x000001A3]) ∧
  (let d := expandDec (keyBytes #v[0x00010203, 0x04050607, 0x08090a0b, 0x0c0d0e0f, 0, 0, 0, 0] 16) 4
   let s := addRoundKey (blockOf #v[0x69c4e0d8, 0x6a7b0430, 0xd8cdb780, 0x70b4c55a]) d 0
   wordsOf s = #v[0x7ad5fda7, 0x89ef4e27, 0x2bca100b, 0x3d9ff59f] ∧
   wordsOf (invSubBytes s) = #v[0xbdb52189, 0xf261b63d, 0x0b107c9e, 0x8b6e776e] ∧
   wordsOf (invShiftRows (invSubBytes s)) = #v[0xbd6e7c3d, 0xf2b5779e, 0x0b61216e, 0x8b10b689] ∧
   wordsOf (invMixColumns (invShiftRows (invSubBytes s))) = #v[0x4773b91f, 0xf72f3543, 0x61cb018e, 0xa1e6cf2c] ∧
   wordsOf (addRoundKey (invMixColumns (invShiftRows (invSubBytes s))) d 1) = #v[0x54d990a1, 0x6ba09ab5, 0x96bbf40e, 0xa111702f])

/-- R111, R116: `ENC` without an encryption-order schedule and `DEC` without a decryption-order one set `ERR.NOKEY`, zero
`DOUT` and `DVALID`, and write nothing else. -/
def Obligations.BlockCommandWithoutSchedule : Prop :=
  (∀ s : State, s.kvalid = false ∨ s.kdir = true →
    exec .enc s = .next { s with err := s.err ||| 0b0010#4, dout := Vector.replicate 4 0, dvalid := false }) ∧
  (∀ s : State, s.kvalid = false ∨ s.kdir = false →
    exec .dec s = .next { s with err := s.err ||| 0b0010#4, dout := Vector.replicate 4 0, dvalid := false })

/-- 42_encrypt_block.md R112 item 4, 43_decrypt_block.md R117 item 5: the block commands do not read `KEY`. -/
def Obligations.BlockCommandsIgnoreRawKey : Prop :=
  ∀ (i : Instr) (s t : State) (key : Vector Word 8), i = .enc ∨ i = .dec → exec i s = .next t →
    exec i { s with key := key } = .next { t with key := key }

/-- R120: `WIPE`, its encoding, and its worked example for every state with no error latched: `STATUS` reads zero,
and an `ENC` after it fails. -/
def Obligations.WipeResult : Prop :=
  (∀ s : State, exec .wipe s = .next { s with
    key := Vector.replicate 8 0, din := Vector.replicate 4 0, dout := Vector.replicate 4 0, rk := Vector.replicate 60 0,
    kvalid := false, kdir := false, nr := 0, dvalid := false }) ∧
  decode 0x00000005 = .command .wipe ∧
  (∀ s : State, s.err = 0 → ∃ t u, exec .wipe s = .next t ∧ t.status = 0x00000000 ∧ exec .enc t = .next u ∧
    u.status = 0x00020000)

/-- R121: `WIPE` against reset; `WIPE` twice; a key command after `WIPE`; no other command writes `KEY` or `DIN`. The host's
own lists (log entries 1 and 2) are as they were. -/
def Obligations.WipeCornerCases : Prop :=
  (∀ s : State, exec .wipe s = .next { State.reset with err := s.err, pending := s.pending, returned := s.returned }) ∧
  (∀ s : State, s.err = 0 → exec .wipe s = .next { State.reset with pending := s.pending, returned := s.returned }) ∧
  (∀ s t : State, exec .wipe s = .next t → exec .wipe t = .next t) ∧
  (∀ (s t : State) (klen : BitVec 8), exec .wipe s = .next t → klen = 16 ∨ klen = 24 ∨ klen = 32 →
    exec (.kexpE klen) t = .next { t with
      rk := expandEnc (List.replicate klen.toNat 0) (klen.toNat / 4), nr := BitVec.ofNat 4 (klen.toNat / 4 + 6),
      kdir := false, kvalid := true } ∧
    exec (.kexpD klen) t = .next { t with
      rk := expandDec (List.replicate klen.toNat 0) (klen.toNat / 4), nr := BitVec.ofNat 4 (klen.toNat / 4 + 6),
      kdir := true, kvalid := true }) ∧
  (∀ (i : Instr) (s t : State), i ≠ .wipe → exec i s = .next t → t.key = s.key ∧ t.din = s.din)

/-- 10_state.md section 9 (R35): the frame of the five commands: what each leaves unchanged. -/
def Obligations.CommandFrames : Prop :=
  ∀ (i : Instr) (s t : State), exec i s = .next t →
    t.pending = s.pending ∧ t.returned = s.returned ∧
    (i ≠ .wipe → t.key = s.key ∧ t.din = s.din) ∧
    (∀ klen, i = .kexpE klen ∨ i = .kexpD klen → t.dout = s.dout ∧ t.dvalid = s.dvalid ∧
      t.err.extractLsb' 1 3 = s.err.extractLsb' 1 3) ∧
    (i = .enc ∨ i = .dec → t.rk = s.rk ∧ t.kvalid = s.kvalid ∧ t.kdir = s.kdir ∧ t.nr = s.nr ∧
      t.err.getLsbD 0 = s.err.getLsbD 0 ∧ t.err.extractLsb' 2 2 = s.err.extractLsb' 2 2) ∧
    (i = .wipe → t.err = s.err)

/-- 20_memory.md section 4 (R49): a command run twice in a row leaves the same state as run once. -/
def Obligations.CommandTwiceIsOnce : Prop :=
  ∀ (i : Instr) (s t : State), exec i s = .next t → exec i t = .next t

/-- 43_decrypt_block.md section R117 items 1 and 2: the round trips through the registers, for every key of every legal length
and every block, from every state. -/
def Obligations.RegisterRoundTrips : Prop :=
  ∀ (klen : BitVec 8) (s : State), klen = 16 ∨ klen = 24 ∨ klen = 32 →
    (∃ a b c d, exec (.kexpE klen) s = .next a ∧ exec .enc a = .next b ∧
      exec (.kexpD klen) { b with din := b.dout } = .next c ∧ exec .dec c = .next d ∧ d.dout = s.din ∧ d.dvalid = true ∧
      d.err = s.err) ∧
    (∃ a b c d, exec (.kexpD klen) s = .next a ∧ exec .dec a = .next b ∧
      exec (.kexpE klen) { b with din := b.dout } = .next c ∧ exec .enc c = .next d ∧ d.dout = s.din ∧ d.dvalid = true ∧
      d.err = s.err)

/-! ### The error latch (60_exceptions.md) -/

/-- R125: each `ERR` bit is set by an event exactly when its cause occurred (or it was set before), and stands in `STATUS`
where the table says. -/
def Obligations.ErrorCausesExact : Prop :=
  (∀ s t : State, step s = .next t → (∀ rest, s.pending ≠ .reset :: rest) →
    (t.err.getLsbD 0 = true ↔ s.err.getLsbD 0 = true ∨ ∃ v rest klen, s.pending = .wr 0 v :: rest ∧
      (decode v = .command (.kexpE klen) ∨ decode v = .command (.kexpD klen)) ∧ klen ≠ 16 ∧ klen ≠ 24 ∧ klen ≠ 32) ∧
    (t.err.getLsbD 1 = true ↔ s.err.getLsbD 1 = true ∨ ∃ v rest, s.pending = .wr 0 v :: rest ∧
      ((decode v = .command .enc ∧ (s.kvalid = false ∨ s.kdir = true)) ∨
       (decode v = .command .dec ∧ (s.kvalid = false ∨ s.kdir = false)))) ∧
    (t.err.getLsbD 2 = true ↔ s.err.getLsbD 2 = true ∨ ∃ v rest r, s.pending = .wr 0 v :: rest ∧ decode v = .illegal r) ∧
    (t.err.getLsbD 3 = true ↔ s.err.getLsbD 3 = true ∨
      (∃ i v rest, s.pending = .wr i v :: rest ∧ (i.toNat = 1 ∨ i.toNat = 2 ∨ i.toNat = 3 ∨ 16 ≤ i.toNat)) ∨
      (∃ i rest, s.pending = .rd i :: rest ∧
        (i.toNat = 0 ∨ i.toNat = 2 ∨ i.toNat = 3 ∨ (4 ≤ i.toNat ∧ i.toNat ≤ 11) ∨ 20 ≤ i.toNat)))) ∧
  (∀ (s : State) (n : Nat), n < 4 → s.status.getLsbD (16 + n) = s.err.getLsbD n)

/-- 60_exceptions.md section 3 (R135): one event raises at most one cause. -/
def Obligations.AtMostOneCausePerEvent : Prop :=
  ∀ s t : State, step s = .next t → (∀ rest, s.pending ≠ .reset :: rest) →
    ∃ n : Nat, ∀ m : Nat, m ≠ n → t.err.getLsbD m = s.err.getLsbD m

/-- R131: no transaction and no command clears an `ERR` bit; reset clears them all; `WIPE` leaves `ERR`; a write to `STATUS`
is a non-permitted access; a run without a reset in it that ends with `ERR` = 0 had `ERR` = 0 at every point. -/
def Obligations.ErrorBitsSticky : Prop :=
  (∀ s t : State, step s = .next t → (∀ rest, s.pending ≠ .reset :: rest) →
    ∀ n : Nat, s.err.getLsbD n = true → t.err.getLsbD n = true) ∧
  (∀ (i : Instr) (s t : State), exec i s = .next t → ∀ n : Nat, s.err.getLsbD n = true → t.err.getLsbD n = true) ∧
  (∀ (s : State) (rest : List Event), s.pending = .reset :: rest → ∃ t, step s = .next t ∧ t.err = 0) ∧
  (∀ s t : State, exec .wipe s = .next t → t.err = s.err) ∧
  (∀ (s : State) (v : Word) (rest : List Event), s.pending = .wr 1 v :: rest →
    step s = .next { s with pending := rest, err := s.err ||| 0b1000#4 }) ∧
  (∀ (k : Nat) (s t : State), .reset ∉ s.pending.take k → core.run k s = .next t → t.clean →
    ∀ j ≤ k, ∃ u : State, core.run j s = .next u ∧ u.clean)

/-- R132: with any `ERR` bits set besides, every command and every event does what it does without them, and the bits stay;
a `RD` of `STATUS`, whose value holds them, returns the value with them. -/
def Obligations.LatchedErrorsBlockNothing : Prop :=
  (∀ (i : Instr) (s t : State) (m : BitVec 4), exec i s = .next t →
    exec i { s with err := s.err ||| m } = .next { t with err := t.err ||| m }) ∧
  (∀ (s t : State) (m : BitVec 4), s.pending.head? ≠ some .reset → s.pending.head? ≠ some (.rd 1) → step s = .next t →
    step { s with err := s.err ||| m } = .next { t with err := t.err ||| m }) ∧
  (∀ (s t : State) (m : BitVec 4) (rest : List Event), s.pending = .rd 1 :: rest → step s = .next t →
    step { s with err := s.err ||| m } =
      .next { t with err := t.err ||| m, returned := s.returned ++ [s.status ||| m.setWidth 32 <<< 16] })

/-! ### Invariants of the whole machine (10_state.md) -/

/-- R37 at reset: the invariants I1 to I4 hold. -/
def Obligations.ResetMeetsInvariants : Prop := State.reset.Inv

/-- 10_state.md section 9 (R37): every step keeps the invariants I1 to I4, and keeps every `ERR` bit but for reset (I5). -/
def Obligations.StepKeepsInvariants : Prop :=
  ∀ s t : State, s.Inv → step s = .next t →
    t.Inv ∧ ((∀ rest, s.pending ≠ .reset :: rest) → ∀ n : Nat, s.err.getLsbD n = true → t.err.getLsbD n = true)

/-- 10_state.md sections 4 and 9 (R27, R37): in a state with the invariants `STATUS` takes none of the values that cannot
occur: its low byte is one of seven, and its reserved bits are 0. -/
def Obligations.StatusOfInvariantStates : Prop :=
  ∀ s : State, s.Inv → (s.status &&& 0xFF) ∈ [0x00#32, 0xA1#32, 0xC1#32, 0xE1#32, 0xA3#32, 0xC3#32, 0xE3#32] ∧
    s.status &&& 0xFFF0FE0C = 0

/-- R36: the schedule and its tags change only by being replaced as a whole (a key command with a legal `klen`), invalidated
(a key command with an illegal one) or cleared (`WIPE`, reset); `ENC` and `DEC` leave them for the next block command. -/
def Obligations.ScheduleImmutableInUse : Prop :=
  (∀ s t : State, step s = .next t →
    ¬ (t.rk = s.rk ∧ t.kvalid = s.kvalid ∧ t.kdir = s.kdir ∧ t.nr = s.nr) →
    ((∃ rest, s.pending = .reset :: rest) ∧
      t.rk = Vector.replicate 60 0 ∧ t.kvalid = false ∧ t.kdir = false ∧ t.nr = 0) ∨
    (∃ v rest i, s.pending = .wr 0 v :: rest ∧ decode v = .command i ∧
      ((∃ klen, (i = .kexpE klen ∨ i = .kexpD klen) ∧ (klen = 16 ∨ klen = 24 ∨ klen = 32) ∧
         t.rk = (if i = .kexpE klen then expandEnc else expandDec) (keyBytes s.key klen.toNat) (klen.toNat / 4) ∧
         t.kvalid = true ∧ t.kdir = decide (i = .kexpD klen) ∧ t.nr = BitVec.ofNat 4 (klen.toNat / 4 + 6)) ∨
       (((∃ klen, (i = .kexpE klen ∨ i = .kexpD klen) ∧ ¬ (klen = 16 ∨ klen = 24 ∨ klen = 32)) ∨ i = .wipe) ∧
         t.rk = Vector.replicate 60 0 ∧ t.kvalid = false ∧ t.kdir = false ∧ t.nr = 0)))) ∧
  (∀ (i : Instr) (s t : State), i = .enc ∨ i = .dec → exec i s = .next t →
    t.rk = s.rk ∧ t.kvalid = s.kvalid ∧ t.kdir = s.kdir ∧ t.nr = s.nr) ∧
  (∀ (s t : State) (i : BitVec 6) (v : Word) (rest : List Event), s.pending = .wr i v :: rest → i ≠ 0 → step s = .next t →
    t.rk = s.rk ∧ t.kvalid = s.kvalid ∧ t.kdir = s.kdir ∧ t.nr = s.nr)

/-- 10_state.md section 9 (R35): which events can change which state. -/
def Obligations.EventFrames : Prop :=
  ∀ s t : State, step s = .next t → (∀ rest, s.pending ≠ .reset :: rest) →
    (∀ v rest, s.pending = .wr 0 v :: rest → decode v ≠ .command .wipe) →
    (t.key ≠ s.key → ∃ i v rest, s.pending = .wr i v :: rest ∧ 4 ≤ i.toNat ∧ i.toNat ≤ 11) ∧
    (t.din ≠ s.din → ∃ i v rest, s.pending = .wr i v :: rest ∧ 12 ≤ i.toNat ∧ i.toNat ≤ 15) ∧
    (t.dout ≠ s.dout ∨ t.dvalid ≠ s.dvalid → ∃ v rest, s.pending = .wr 0 v :: rest ∧
      (decode v = .command .enc ∨ decode v = .command .dec)) ∧
    (t.returned ≠ s.returned → ∃ i rest, s.pending = .rd i :: rest)

/-- 60_exceptions.md section 4 (R139, R143), 10_state.md R22, R26: no path but a block command lets `KEY` or `RK` reach
anything the host can see: two states that differ in `KEY` and `RK` alone still do so after any other event. -/
def Obligations.KeyMaterialUnreadable : Prop :=
  ∀ (s t : State) (key : Vector Word 8) (rk : Schedule),
    (∀ v rest, s.pending = .wr 0 v :: rest → decode v ≠ .command .enc ∧ decode v ≠ .command .dec) → step s = .next t →
    ∃ key' rk', step { s with key := key, rk := rk } = .next { t with key := key', rk := rk' }

/-! ### The AES functions (40_aes_functions.md) -/

/-- R76: `xtime`, `gmul` as the sum of the multiples its loop adds, that the two compute addition and multiplication of
polynomials over GF(2) modulo `x^8 + x^4 + x^3 + x + 1`, the laws of `gmul`, and the worked values. -/
def Obligations.FieldMultiplicationLaws : Prop :=
  (∀ a : Byte, xtime a = if a.getLsbD 7 = true then (a <<< 1) ^^^ 0x1B else a <<< 1) ∧
  (∀ a b : Byte, gmul a b =
    (List.range 8).foldl (fun p i => if b.getLsbD i = true then p ^^^ (xtime^[i] a) else p) 0) ∧
  (let poly : Byte → Polynomial (ZMod 2) := fun a =>
     ∑ i ∈ Finset.range 8, if a.getLsbD i = true then Polynomial.X ^ i else 0
   (∀ a b : Byte, poly (a ^^^ b) = poly a + poly b) ∧
   ∀ a b : Byte, poly (gmul a b) = (poly a * poly b) %ₘ
     (Polynomial.X ^ 8 + Polynomial.X ^ 4 + Polynomial.X ^ 3 + Polynomial.X + 1)) ∧
  (∀ a b : Byte, gmul a b = gmul b a) ∧ (∀ a b c : Byte, gmul (gmul a b) c = gmul a (gmul b c)) ∧
  (∀ a b c : Byte, gmul a (b ^^^ c) = gmul a b ^^^ gmul a c) ∧ (∀ a : Byte, gmul a 0x01 = a) ∧ (∀ a : Byte, gmul a 0 = 0) ∧
  xtime 0x57 = 0xae ∧ xtime 0xae = 0x47 ∧ xtime 0x47 = 0x8e ∧ xtime 0x8e = 0x07 ∧ gmul 0x57 0x13 = 0xfe ∧
  gmul 0x57 0x83 = 0xc1

/-- R77: the six constant multipliers in terms of `xtime`. -/
def Obligations.ConstantMultipliers : Prop :=
  ∀ a : Byte, gmul a 0x02 = xtime a ∧ gmul a 0x03 = xtime a ^^^ a ∧ gmul a 0x09 = xtime (xtime (xtime a)) ^^^ a ∧
    gmul a 0x0b = xtime (xtime (xtime a)) ^^^ xtime a ^^^ a ∧
    gmul a 0x0d = xtime (xtime (xtime a)) ^^^ xtime (xtime a) ^^^ a ∧
    gmul a 0x0e = xtime (xtime (xtime a)) ^^^ xtime (xtime a) ^^^ xtime a

/-- R78: `ginv(a)` is the one byte that multiplies with `a` to 1; the convention for 0; the worked values. -/
def Obligations.FieldInverse : Prop :=
  (∀ a : Byte, a ≠ 0 → gmul a (ginv a) = 0x01 ∧ ∀ b : Byte, gmul a b = 0x01 → b = ginv a) ∧ ginv 0x00 = 0x00 ∧
  ginv 0x01 = 0x01 ∧ ginv 0x02 = 0x8d ∧ ginv 0x53 = 0xca

/-- R79: the printed table is the algebraic S-box, byte by byte and bit by bit; it is a permutation, has no fixed point and no
`a` that maps to its complement. -/
def Obligations.SboxIsAlgebraic : Prop :=
  (∀ a : Byte, sbox a = ginv a ^^^ (ginv a).rotateLeft 1 ^^^ (ginv a).rotateLeft 2 ^^^ (ginv a).rotateLeft 3 ^^^
    (ginv a).rotateLeft 4 ^^^ 0x63) ∧
  (∀ (a : Byte) (i : Nat), i < 8 → (sbox a).getLsbD i =
    ((ginv a).getLsbD i ^^ (ginv a).getLsbD ((i + 4) % 8) ^^ (ginv a).getLsbD ((i + 5) % 8) ^^
      (ginv a).getLsbD ((i + 6) % 8) ^^ (ginv a).getLsbD ((i + 7) % 8) ^^ (0x63#8).getLsbD i)) ∧
  sbox 0x53 = 0xed ∧ Function.Bijective sbox ∧ (∀ a : Byte, sbox a ≠ a) ∧ (∀ a : Byte, sbox a ≠ a ^^^ 0xff)

/-- R81: `INV_SBOX` is the inverse permutation. -/
def Obligations.InverseSbox : Prop :=
  (∀ a : Byte, invSbox (sbox a) = a) ∧ (∀ a : Byte, sbox (invSbox a) = a) ∧ invSbox 0xed = 0x53

/-- R82, R83: `SubBytes`, `InvSubBytes`, `ShiftRows`, `InvShiftRows` byte by byte, by row and column, and as index lists. -/
def Obligations.SubstitutionAndRowShifts : Prop :=
  (∀ (s : Block) (k : Nat) (h : k < 16), (subBytes s)[k] = sbox s[k] ∧ (invSubBytes s)[k] = invSbox s[k]) ∧
  (∀ (s : Block) (r c : Nat) (hr : r < 4) (hc : c < 4),
    (shiftRows s)[r + 4 * c] = s[r + 4 * ((c + r) % 4)] ∧ (invShiftRows s)[r + 4 * ((c + r) % 4)] = s[r + 4 * c]) ∧
  (∀ s : Block,
    (shiftRows s).toList = [0, 5, 10, 15, 4, 9, 14, 3, 8, 13, 2, 7, 12, 1, 6, 11].map (fun k => s.toList.getD k 0) ∧
    (invShiftRows s).toList = [0, 13, 10, 7, 4, 1, 14, 11, 8, 5, 2, 15, 12, 9, 6, 3].map (fun k => s.toList.getD k 0))

/-- R84, R85: `MixColumns` and `InvMixColumns` column by column, that the second is the inverse of the first, and the worked
values. -/
def Obligations.ColumnMixing : Prop :=
  (∀ (s : Block) (c : Nat) (h : c < 4),
    (mixColumns s)[4 * c] = gmul s[4 * c] 2 ^^^ gmul s[4 * c + 1] 3 ^^^ s[4 * c + 2] ^^^ s[4 * c + 3] ∧
    (mixColumns s)[4 * c + 1] = s[4 * c] ^^^ gmul s[4 * c + 1] 2 ^^^ gmul s[4 * c + 2] 3 ^^^ s[4 * c + 3] ∧
    (mixColumns s)[4 * c + 2] = s[4 * c] ^^^ s[4 * c + 1] ^^^ gmul s[4 * c + 2] 2 ^^^ gmul s[4 * c + 3] 3 ∧
    (mixColumns s)[4 * c + 3] = gmul s[4 * c] 3 ^^^ s[4 * c + 1] ^^^ s[4 * c + 2] ^^^ gmul s[4 * c + 3] 2) ∧
  (∀ (s : Block) (c : Nat) (h : c < 4),
    (invMixColumns s)[4 * c] =
      gmul s[4 * c] 0x0e ^^^ gmul s[4 * c + 1] 0x0b ^^^ gmul s[4 * c + 2] 0x0d ^^^ gmul s[4 * c + 3] 0x09 ∧
    (invMixColumns s)[4 * c + 1] =
      gmul s[4 * c] 0x09 ^^^ gmul s[4 * c + 1] 0x0e ^^^ gmul s[4 * c + 2] 0x0b ^^^ gmul s[4 * c + 3] 0x0d ∧
    (invMixColumns s)[4 * c + 2] =
      gmul s[4 * c] 0x0d ^^^ gmul s[4 * c + 1] 0x09 ^^^ gmul s[4 * c + 2] 0x0e ^^^ gmul s[4 * c + 3] 0x0b ∧
    (invMixColumns s)[4 * c + 3] =
      gmul s[4 * c] 0x0b ^^^ gmul s[4 * c + 1] 0x0d ^^^ gmul s[4 * c + 2] 0x09 ^^^ gmul s[4 * c + 3] 0x0e) ∧
  (∀ s : Block, invMixColumns (mixColumns s) = s) ∧ (∀ s : Block, mixColumns (invMixColumns s) = s) ∧
  mixColumn 0xdb 0x13 0x53 0x45 = #v[0x8e, 0x4d, 0xa1, 0xbc] ∧ mixColumn 0xf2 0x0a 0x22 0x5c = #v[0x9f, 0xdc, 0x58, 0x9d] ∧
  mixColumn 0x01 0x01 0x01 0x01 = #v[0x01, 0x01, 0x01, 0x01] ∧ mixColumn 0xc6 0xc6 0xc6 0xc6 = #v[0xc6, 0xc6, 0xc6, 0xc6] ∧
  mixColumn 0xd4 0xd4 0xd4 0xd5 = #v[0xd5, 0xd5, 0xd7, 0xd6] ∧ mixColumn 0x2d 0x26 0x31 0x4c = #v[0x4d, 0x7e, 0xbd, 0xf8] ∧
  invMixColumn 0x8e 0x4d 0xa1 0xbc = #v[0xdb, 0x13, 0x53, 0x45]

/-- R86: `AddRoundKey` byte by byte and in words, for the round keys of the store (`r` up to 14), and that it is its own
inverse. -/
def Obligations.RoundKeyAddition : Prop :=
  (∀ (s : Block) (w : Schedule) (r c j : Nat) (hr : r < 15) (hc : c < 4) (hj : j < 4),
    (addRoundKey s w r)[4 * c + j] = s[4 * c + j] ^^^ byteOf (w[4 * r + c]) j) ∧
  (∀ (s : Block) (w : Schedule) (r c : Nat) (hr : r < 15) (hc : c < 4),
    (wordsOf (addRoundKey s w r))[c] = (wordsOf s)[c] ^^^ w[4 * r + c]) ∧
  (∀ (s : Block) (w : Schedule) (r : Nat), addRoundKey (addRoundKey s w r) w r = s)

/-- R87, R88, R91: the word functions of the key expansion, which round constants each key length uses, and the worked
values. -/
def Obligations.KeyExpansionWordFunctions : Prop :=
  (∀ w : Word, subWord w = wordOf (sbox (byteOf w 0)) (sbox (byteOf w 1)) (sbox (byteOf w 2)) (sbox (byteOf w 3))) ∧
  (∀ w : Word, rotWord w = wordOf (byteOf w 1) (byteOf w 2) (byteOf w 3) (byteOf w 0) ∧ rotWord w = w <<< 8 ||| w >>> 24) ∧
  (∀ w : Word, ∀ (j : Nat) (h : j < 4),
    byteOf (invMixWord w) j = (invMixColumn (byteOf w 0) (byteOf w 1) (byteOf w 2) (byteOf w 3))[j]) ∧
  (List.range' 1 10).map rcon = [0x01000000, 0x02000000, 0x04000000, 0x08000000, 0x10000000, 0x20000000, 0x40000000,
    0x80000000, 0x1b000000, 0x36000000] ∧
  (∀ j : Nat, 1 ≤ j → rcon j = wordOf (xtime^[j - 1] 0x01) 0 0 0) ∧
  (∀ (nk i : Nat) (w : Word), i % nk ≠ 0 → expandTemp nk i w = if nk = 8 ∧ i % nk = 4 then subWord w else w) ∧
  (∀ (nk i : Nat) (w : Word), i % nk = 0 → expandTemp nk i w = subWord (rotWord w) ^^^ rcon (i / nk)) ∧
  (∀ nk i : Nat, nk = 4 ∨ nk = 6 ∨ nk = 8 → nk ≤ i → i ≤ 4 * (nk + 6 + 1) - 1 → i % nk = 0 →
    1 ≤ i / nk ∧ i / nk ≤ if nk = 4 then 10 else if nk = 6 then 8 else 7) ∧
  subWord 0x00102030 = 0x63cab704 ∧ rotWord 0x09cf4f3c = 0xcf4f3c09 ∧ subWord (rotWord 0x09cf4f3c) = 0x8a84eb01 ∧
  invMixWord 0xa0fafe17 = 0x2b3708a7

/-- R90: the encryption-order schedule satisfies the recurrence word by word: the key's words first, then the recurrence,
then zeros; with the worked values. -/
def Obligations.EncryptionScheduleRecurrence : Prop :=
  (∀ (k : List Byte) (nk : Nat), nk = 4 ∨ nk = 6 ∨ nk = 8 → k.length = 4 * nk →
    (∀ (i : Nat) (h : i < 60), i < nk → (expandEnc k nk)[i] =
      wordOf (k.getD (4 * i) 0) (k.getD (4 * i + 1) 0) (k.getD (4 * i + 2) 0) (k.getD (4 * i + 3) 0)) ∧
    (∀ (i : Nat) (h : i < 60), nk ≤ i → i ≤ 4 * (nk + 6 + 1) - 1 → (expandEnc k nk)[i] = (expandEnc k nk)[i - nk] ^^^
      (if i % nk = 0 then subWord (rotWord (expandEnc k nk)[i - 1]) ^^^ rcon (i / nk)
       else if nk = 8 ∧ i % nk = 4 then subWord (expandEnc k nk)[i - 1]
       else (expandEnc k nk)[i - 1])) ∧
    (∀ (i : Nat) (h : i < 60), 4 * (nk + 6 + 1) ≤ i → (expandEnc k nk)[i] = 0x00000000)) ∧
  (let w := expandEnc [0x2b, 0x7e, 0x15, 0x16, 0x28, 0xae, 0xd2, 0xa6, 0xab, 0xf7, 0x15, 0x88, 0x09, 0xcf, 0x4f, 0x3c] 4
   w[4] = 0xa0fafe17 ∧ w[43] = 0xb6630ca6) ∧
  (let w := expandEnc [0x8e, 0x73, 0xb0, 0xf7, 0xda, 0x0e, 0x64, 0x52, 0xc8, 0x10, 0xf3, 0x2b, 0x80, 0x90, 0x79, 0xe5,
     0x62, 0xf8, 0xea, 0xd2, 0x52, 0x2c, 0x6b, 0x7b] 6
   w[6] = 0xfe0c91f7 ∧ w[51] = 0x01002202) ∧
  (let w := expandEnc [0x60, 0x3d, 0xeb, 0x10, 0x15, 0xca, 0x71, 0xbe, 0x2b, 0x73, 0xae, 0xf0, 0x85, 0x7d, 0x77, 0x81,
     0x1f, 0x35, 0x2c, 0x07, 0x3b, 0x61, 0x08, 0xd7, 0x2d, 0x98, 0x10, 0xa3, 0x09, 0x14, 0xdf, 0xf4] 8
   w[8] = 0x9ba35411 ∧ w[12] = 0xa8b09c1a ∧ w[59] = 0x706c631e)

/-- R92: the decryption-order schedule is the encryption-order one with its round keys reversed, `InvMixWord` on all but the
first and the last, and a zero tail; with the worked values. -/
def Obligations.DecryptionScheduleReversed : Prop :=
  (∀ (k : List Byte) (nk : Nat), nk = 4 ∨ nk = 6 ∨ nk = 8 → k.length = 4 * nk →
    (∀ (r c : Nat) (hr : r < 15) (hc : c < 4), r ≤ nk + 6 → (expandDec k nk)[4 * r + c] =
      if 0 < r ∧ r < nk + 6 then invMixWord (scheduleWord (expandEnc k nk) (4 * (nk + 6 - r) + c))
      else scheduleWord (expandEnc k nk) (4 * (nk + 6 - r) + c)) ∧
    (∀ (i : Nat) (h : i < 60), i ≤ 4 * (nk + 6) + 3 → scheduleWord (expandEnc k nk) i = (expandEnc k nk)[i]) ∧
    (∀ (i : Nat) (h : i < 60), 4 * (nk + 6 + 1) ≤ i → (expandDec k nk)[i] = 0x00000000)) ∧
  (let d := expandDec [0x00, 0x01, 0x02, 0x03, 0x04, 0x05, 0x06, 0x07, 0x08, 0x09, 0x0a, 0x0b, 0x0c, 0x0d, 0x0e, 0x0f] 4
   d.toList.take 8 = [0x13111d7f, 0xe3944a17, 0xf307a78b, 0x4d2b30c5, 0x13aa29be, 0x9c8faff6, 0xf770f580, 0x00f7bf03] ∧
   (d.toList.drop 40).take 4 = [0x00010203, 0x04050607, 0x08090a0b, 0x0c0d0e0f])

/-- R93: `Cipher` is the initial key addition, a loop of full rounds over 1 to `Nr - 1`, and a last round without
`MixColumns`; with the worked values. -/
def Obligations.CipherRoundLoop : Prop :=
  (∀ (b : Block) (w : Schedule) (nr : Nat), cipher b w nr =
    addRoundKey (shiftRows (subBytes ((List.range' 1 (nr - 1)).foldl
      (fun s r => addRoundKey (mixColumns (shiftRows (subBytes s))) w r) (addRoundKey b w 0)))) w nr) ∧
  (let w := expandEnc [0x2b, 0x7e, 0x15, 0x16, 0x28, 0xae, 0xd2, 0xa6, 0xab, 0xf7, 0x15, 0x88, 0x09, 0xcf, 0x4f, 0x3c] 4
   let b := blockOf #v[0x3243f6a8, 0x885a308d, 0x313198a2, 0xe0370734]
   let s := addRoundKey b w 0
   wordsOf s = #v[0x193de3be, 0xa0f4e22b, 0x9ac68d2a, 0xe9f84808] ∧
   wordsOf (subBytes s) = #v[0xd42711ae, 0xe0bf98f1, 0xb8b45de5, 0x1e415230] ∧
   wordsOf (shiftRows (subBytes s)) = #v[0xd4bf5d30, 0xe0b452ae, 0xb84111f1, 0x1e2798e5] ∧
   wordsOf (mixColumns (shiftRows (subBytes s))) = #v[0x046681e5, 0xe0cb199a, 0x48f8d37a, 0x2806264c] ∧
   wordsOf (addRoundKey (mixColumns (shiftRows (subBytes s))) w 1) = #v[0xa49c7ff2, 0x689f352b, 0x6b5bea43, 0x026a5049] ∧
   wordsOf (cipher b w 10) = #v[0x3925841d, 0x02dc09fb, 0xdc118597, 0x196a0b32])

/-- R94: `EqInvCipher` is the same loop with each step's inverse form; `InvSubBytes` and `InvShiftRows` commute. -/
def Obligations.InverseCipherRoundLoop : Prop :=
  (∀ (b : Block) (d : Schedule) (nr : Nat), eqInvCipher b d nr =
    addRoundKey (invShiftRows (invSubBytes ((List.range' 1 (nr - 1)).foldl
      (fun s r => addRoundKey (invMixColumns (invShiftRows (invSubBytes s))) d r) (addRoundKey b d 0)))) d nr) ∧
  (∀ s : Block, invSubBytes (invShiftRows s) = invShiftRows (invSubBytes s))

/-- R95: the laws L1 to L5: each inverse round transformation undoes its partner, `AddRoundKey` undoes itself,
`InvMixColumns` is linear, and the two ciphers undo each other under the two schedules of every key. -/
def Obligations.AesLaws : Prop :=
  (∀ s : Block, invSubBytes (subBytes s) = s ∧ invShiftRows (shiftRows s) = s ∧ invMixColumns (mixColumns s) = s) ∧
  (∀ (s : Block) (w : Schedule) (r : Nat), addRoundKey (addRoundKey s w r) w r = s) ∧
  (∀ s t : Block, invMixColumns (Vector.zipWith (· ^^^ ·) s t) =
    Vector.zipWith (· ^^^ ·) (invMixColumns s) (invMixColumns t)) ∧
  (∀ (s : Block) (w : Schedule) (r c : Nat) (hr : r < 15) (hc : c < 4),
    (wordsOf (invMixColumns (addRoundKey s w r)))[c] = (wordsOf (invMixColumns s))[c] ^^^ invMixWord w[4 * r + c]) ∧
  (∀ (k : List Byte) (nk : Nat) (b : Block), nk = 4 ∨ nk = 6 ∨ nk = 8 → k.length = 4 * nk →
    eqInvCipher (cipher b (expandEnc k nk) (nk + 6)) (expandDec k nk) (nk + 6) = b ∧
    cipher (eqInvCipher b (expandDec k nk) (nk + 6)) (expandEnc k nk) (nk + 6) = b)

/-! ### Host scripts (30_encoding.md) -/

/-- 30_encoding.md section 5 (R68), 70_reset_and_hazards.md section 2 (R150): a script of well-formed lines, one transaction a
line, runs to its end from every state, and binds the results of its `RD` lines, in their order, to their names; a `RD` line's
name stands for the value the slot gave; a script with an ill-formed line has no run (log entry 9). -/
def Obligations.ReadResultsBoundToNames : Prop :=
  (∀ (ls : List Line) (s : State), (∀ l ∈ ls, l.wellFormed = true) → ∃ es r,
    scriptEvents ls = some es ∧ es.length = ls.length ∧ runScript ls s = some r ∧
    core.run es.length { s with pending := es } = .next r.finalState ∧ r.finalState.pending = [] ∧
    r.bound.map Prod.fst = boundNames ls ∧ r.finalState.returned = s.returned ++ r.bound.map Prod.snd) ∧
  (∀ (ls : List Line) (s : State), (∃ l ∈ ls, l.wellFormed = false) → runScript ls s = none) ∧
  (∀ (name : String) (s : State),
    (∃ r, runScript [.rd 1 name] s = some r ∧ r.valueOf name = some s.status) ∧
    (∀ j : Fin 4, ∃ r, runScript [.rd (12 + j.val) name] s = some r ∧ r.valueOf name = some s.din[j]) ∧
    (∀ j : Fin 4, ∃ r, runScript [.rd (16 + j.val) name] s = some r ∧ r.valueOf name = some s.dout[j]) ∧
    (∀ i : Nat, i < 64 → i ≠ 1 → ¬ (12 ≤ i ∧ i ≤ 19) →
      ∃ r, runScript [.rd i name] s = some r ∧ r.valueOf name = some 0x00000000))

/-- 30_encoding.md section 5 (R69): the byte string the pseudo-instructions with an output give out, from every state:
`STBLK -> Y` the 16 bytes of `DOUT`, `encrypt_block X -> Y` and `decrypt_block X -> Y` the cipher's result on `X` with a schedule
of the order needed in the slot, and 16 zero bytes with `ERR.NOKEY` latched without one; the others give out none. -/
def Obligations.PseudoInstructionOutputs : Prop :=
  (∀ (y : String) (s : State), ∃ r, runPseudo (.stBlk y) s = some (r, some (fileBytes s.dout.toList 16)) ∧
    r.finalState.err = s.err) ∧
  (∀ (x : List Byte) (y : String) (s : State), x.length = 16 →
    (s.kvalid = true ∧ s.kdir = false →
      ∃ r, runPseudo (.encryptBlock x y) s =
          some (r, some (cipher (Vector.ofFn fun k => x.getD k.val 0) s.rk s.nr.toNat).toList) ∧
        r.finalState.dvalid = true ∧ r.finalState.err = s.err) ∧
    (¬ (s.kvalid = true ∧ s.kdir = false) →
      ∃ r, runPseudo (.encryptBlock x y) s = some (r, some (List.replicate 16 0)) ∧
        r.finalState.dvalid = false ∧ r.finalState.err = s.err ||| 0b0010#4) ∧
    (s.kvalid = true ∧ s.kdir = true →
      ∃ r, runPseudo (.decryptBlock x y) s =
          some (r, some (eqInvCipher (Vector.ofFn fun k => x.getD k.val 0) s.rk s.nr.toNat).toList) ∧
        r.finalState.dvalid = true ∧ r.finalState.err = s.err) ∧
    (¬ (s.kvalid = true ∧ s.kdir = true) →
      ∃ r, runPseudo (.decryptBlock x y) s = some (r, some (List.replicate 16 0)) ∧
        r.finalState.dvalid = false ∧ r.finalState.err = s.err ||| 0b0010#4)) ∧
  (∀ (x : List Byte) (s : State), x.length < 256 → ∃ r q, runPseudo (.cookEncryptKey x) s = some (r, none) ∧
    runPseudo (.cookDecryptKey x) s = some (q, none))
end

