-- ==== Sys2Proof/Laws/Aes.lean ====
section
/-! SUPPORT. The AES functions byte by byte and word by word (40_aes_functions.md R82 to R92), for proofs that do not unfold
them. -/

namespace Sys2Proof.Machine

@[simp] theorem subBytes_getElem (s : Block) (k : Nat) (h : k < 16) : (subBytes s)[k] = sbox s[k] := by
  simp [subBytes]

@[simp] theorem invSubBytes_getElem (s : Block) (k : Nat) (h : k < 16) : (invSubBytes s)[k] = invSbox s[k] := by
  simp [invSubBytes]

theorem shiftRows_getElem (s : Block) (k : Nat) (h : k < 16) :
    (shiftRows s)[k] = s[k % 4 + 4 * ((k / 4 + k % 4) % 4)] := by
  simp [shiftRows]

theorem invShiftRows_getElem (s : Block) (k : Nat) (h : k < 16) :
    (invShiftRows s)[k] = s[k % 4 + 4 * ((k / 4 + 4 - k % 4) % 4)] := by
  simp [invShiftRows]

theorem onColumns_getElem (f : Byte → Byte → Byte → Byte → Vector Byte 4) (s : Block) (k : Nat) (h : k < 16) :
    (onColumns f s)[k] =
      (f (s[4 * (k / 4)]) (s[4 * (k / 4) + 1]) (s[4 * (k / 4) + 2]) (s[4 * (k / 4) + 3]))[k % 4] := by
  simp [onColumns]

@[simp] theorem addRoundKey_getElem (s : Block) (w : Schedule) (r k : Nat) (h : k < 16) :
    (addRoundKey s w r)[k] = s[k] ^^^ byteOf (scheduleWord w (4 * r + k / 4)) (k % 4) := by
  simp [addRoundKey]

theorem scheduleWord_of_lt (w : Schedule) (i : Nat) (h : i < 60) : scheduleWord w i = w[i] := by
  simp [scheduleWord, h]

/-- R90: a turn of the loop writes word `i` and no other. -/
theorem expandStep_getElem (nk i : Nat) (w : Schedule) (j : Nat) (h : j < 60) (hi : i < 60) :
    (expandStep nk i w)[j] = if j = i then w[i - nk] ^^^ expandTemp nk i (w[i - 1]) else w[j] := by
  simp only [expandStep, hi, ↓reduceDIte, Vector.getElem_set, eq_comm]

/-- R90: the loop from word `i` on leaves the words before `i`. -/
theorem expandLoop_below (nk n i : Nat) (w : Schedule) (j : Nat) (h : j < 60) (hj : j < i) :
    (expandLoop nk n i w)[j] = w[j] := by
  induction n generalizing i w with
  | zero => rfl
  | succ n ih =>
    rw [expandLoop, ih (i + 1) _ (by omega)]
    by_cases hi : i < 60
    · rw [expandStep_getElem nk i w j h hi, if_neg (by omega)]
    · simp [expandStep, hi]

/-- R90: the loop of `n` turns from word `i` on leaves the words from `i + n` on. -/
theorem expandLoop_above (nk n i : Nat) (w : Schedule) (j : Nat) (h : j < 60) (hj : i + n ≤ j) :
    (expandLoop nk n i w)[j] = w[j] := by
  induction n generalizing i w with
  | zero => rfl
  | succ n ih => rw [expandLoop, ih (i + 1) _ (by omega), expandStep_getElem _ _ _ j h (by omega), if_neg (by omega)]

/-- R92: word `i` of the schedule in decryption order. -/
theorem decryptOrder_getElem (e : Schedule) (nr i : Nat) (h : i < 60) :
    (decryptOrder e nr)[i] = if i / 4 ≤ nr then decryptWord e nr (i / 4) (i % 4) else 0 := by
  simp [decryptOrder]

end Sys2Proof.Machine
end

