-- ==== Sys2Proof/Laws/State.lean ====
section
/-! SUPPORT. One lemma per field per named update of the state (Machine/Ops.lean), so that no later proof unfolds a record
update. -/

namespace Sys2Proof.Machine


@[simp] theorem State.setKey_key (j : Fin 8) (v : Word) (s : State) : (s.setKey j v).key = s.key.set j v := rfl
@[simp] theorem State.setKey_din (j : Fin 8) (v : Word) (s : State) : (s.setKey j v).din = s.din := rfl
@[simp] theorem State.setKey_dout (j : Fin 8) (v : Word) (s : State) : (s.setKey j v).dout = s.dout := rfl
@[simp] theorem State.setKey_rk (j : Fin 8) (v : Word) (s : State) : (s.setKey j v).rk = s.rk := rfl
@[simp] theorem State.setKey_kvalid (j : Fin 8) (v : Word) (s : State) : (s.setKey j v).kvalid = s.kvalid := rfl
@[simp] theorem State.setKey_kdir (j : Fin 8) (v : Word) (s : State) : (s.setKey j v).kdir = s.kdir := rfl
@[simp] theorem State.setKey_nr (j : Fin 8) (v : Word) (s : State) : (s.setKey j v).nr = s.nr := rfl
@[simp] theorem State.setKey_dvalid (j : Fin 8) (v : Word) (s : State) : (s.setKey j v).dvalid = s.dvalid := rfl
@[simp] theorem State.setKey_err (j : Fin 8) (v : Word) (s : State) : (s.setKey j v).err = s.err := rfl
@[simp] theorem State.setKey_pending (j : Fin 8) (v : Word) (s : State) : (s.setKey j v).pending = s.pending := rfl
@[simp] theorem State.setKey_returned (j : Fin 8) (v : Word) (s : State) : (s.setKey j v).returned = s.returned := rfl

@[simp] theorem State.setDin_key (j : Fin 4) (v : Word) (s : State) : (s.setDin j v).key = s.key := rfl
@[simp] theorem State.setDin_din (j : Fin 4) (v : Word) (s : State) : (s.setDin j v).din = s.din.set j v := rfl
@[simp] theorem State.setDin_dout (j : Fin 4) (v : Word) (s : State) : (s.setDin j v).dout = s.dout := rfl
@[simp] theorem State.setDin_rk (j : Fin 4) (v : Word) (s : State) : (s.setDin j v).rk = s.rk := rfl
@[simp] theorem State.setDin_kvalid (j : Fin 4) (v : Word) (s : State) : (s.setDin j v).kvalid = s.kvalid := rfl
@[simp] theorem State.setDin_kdir (j : Fin 4) (v : Word) (s : State) : (s.setDin j v).kdir = s.kdir := rfl
@[simp] theorem State.setDin_nr (j : Fin 4) (v : Word) (s : State) : (s.setDin j v).nr = s.nr := rfl
@[simp] theorem State.setDin_dvalid (j : Fin 4) (v : Word) (s : State) : (s.setDin j v).dvalid = s.dvalid := rfl
@[simp] theorem State.setDin_err (j : Fin 4) (v : Word) (s : State) : (s.setDin j v).err = s.err := rfl
@[simp] theorem State.setDin_pending (j : Fin 4) (v : Word) (s : State) : (s.setDin j v).pending = s.pending := rfl
@[simp] theorem State.setDin_returned (j : Fin 4) (v : Word) (s : State) : (s.setDin j v).returned = s.returned := rfl

@[simp] theorem State.setResult_key (r : Vector Word 4) (s : State) : (s.setResult r).key = s.key := rfl
@[simp] theorem State.setResult_din (r : Vector Word 4) (s : State) : (s.setResult r).din = s.din := rfl
@[simp] theorem State.setResult_dout (r : Vector Word 4) (s : State) : (s.setResult r).dout = r := rfl
@[simp] theorem State.setResult_rk (r : Vector Word 4) (s : State) : (s.setResult r).rk = s.rk := rfl
@[simp] theorem State.setResult_kvalid (r : Vector Word 4) (s : State) : (s.setResult r).kvalid = s.kvalid := rfl
@[simp] theorem State.setResult_kdir (r : Vector Word 4) (s : State) : (s.setResult r).kdir = s.kdir := rfl
@[simp] theorem State.setResult_nr (r : Vector Word 4) (s : State) : (s.setResult r).nr = s.nr := rfl
@[simp] theorem State.setResult_dvalid (r : Vector Word 4) (s : State) : (s.setResult r).dvalid = true := rfl
@[simp] theorem State.setResult_err (r : Vector Word 4) (s : State) : (s.setResult r).err = s.err := rfl
@[simp] theorem State.setResult_pending (r : Vector Word 4) (s : State) : (s.setResult r).pending = s.pending := rfl
@[simp] theorem State.setResult_returned (r : Vector Word 4) (s : State) : (s.setResult r).returned = s.returned := rfl

@[simp] theorem State.clearResult_key (s : State) : (s.clearResult).key = s.key := rfl
@[simp] theorem State.clearResult_din (s : State) : (s.clearResult).din = s.din := rfl
@[simp] theorem State.clearResult_dout (s : State) : (s.clearResult).dout = Vector.replicate 4 0 := rfl
@[simp] theorem State.clearResult_rk (s : State) : (s.clearResult).rk = s.rk := rfl
@[simp] theorem State.clearResult_kvalid (s : State) : (s.clearResult).kvalid = s.kvalid := rfl
@[simp] theorem State.clearResult_kdir (s : State) : (s.clearResult).kdir = s.kdir := rfl
@[simp] theorem State.clearResult_nr (s : State) : (s.clearResult).nr = s.nr := rfl
@[simp] theorem State.clearResult_dvalid (s : State) : (s.clearResult).dvalid = false := rfl
@[simp] theorem State.clearResult_err (s : State) : (s.clearResult).err = s.err := rfl
@[simp] theorem State.clearResult_pending (s : State) : (s.clearResult).pending = s.pending := rfl
@[simp] theorem State.clearResult_returned (s : State) : (s.clearResult).returned = s.returned := rfl

@[simp] theorem State.setSchedule_key (w : Schedule) (n : BitVec 4) (d : Bool) (s : State) : (s.setSchedule w n d).key = s.key := rfl
@[simp] theorem State.setSchedule_din (w : Schedule) (n : BitVec 4) (d : Bool) (s : State) : (s.setSchedule w n d).din = s.din := rfl
@[simp] theorem State.setSchedule_dout (w : Schedule) (n : BitVec 4) (d : Bool) (s : State) : (s.setSchedule w n d).dout = s.dout := rfl
@[simp] theorem State.setSchedule_rk (w : Schedule) (n : BitVec 4) (d : Bool) (s : State) : (s.setSchedule w n d).rk = w := rfl
@[simp] theorem State.setSchedule_kvalid (w : Schedule) (n : BitVec 4) (d : Bool) (s : State) : (s.setSchedule w n d).kvalid = true := rfl
@[simp] theorem State.setSchedule_kdir (w : Schedule) (n : BitVec 4) (d : Bool) (s : State) : (s.setSchedule w n d).kdir = d := rfl
@[simp] theorem State.setSchedule_nr (w : Schedule) (n : BitVec 4) (d : Bool) (s : State) : (s.setSchedule w n d).nr = n := rfl
@[simp] theorem State.setSchedule_dvalid (w : Schedule) (n : BitVec 4) (d : Bool) (s : State) : (s.setSchedule w n d).dvalid = s.dvalid := rfl
@[simp] theorem State.setSchedule_err (w : Schedule) (n : BitVec 4) (d : Bool) (s : State) : (s.setSchedule w n d).err = s.err := rfl
@[simp] theorem State.setSchedule_pending (w : Schedule) (n : BitVec 4) (d : Bool) (s : State) : (s.setSchedule w n d).pending = s.pending := rfl
@[simp] theorem State.setSchedule_returned (w : Schedule) (n : BitVec 4) (d : Bool) (s : State) : (s.setSchedule w n d).returned = s.returned := rfl

@[simp] theorem State.clearSchedule_key (s : State) : (s.clearSchedule).key = s.key := rfl
@[simp] theorem State.clearSchedule_din (s : State) : (s.clearSchedule).din = s.din := rfl
@[simp] theorem State.clearSchedule_dout (s : State) : (s.clearSchedule).dout = s.dout := rfl
@[simp] theorem State.clearSchedule_rk (s : State) : (s.clearSchedule).rk = Vector.replicate 60 0 := rfl
@[simp] theorem State.clearSchedule_kvalid (s : State) : (s.clearSchedule).kvalid = false := rfl
@[simp] theorem State.clearSchedule_kdir (s : State) : (s.clearSchedule).kdir = false := rfl
@[simp] theorem State.clearSchedule_nr (s : State) : (s.clearSchedule).nr = 0 := rfl
@[simp] theorem State.clearSchedule_dvalid (s : State) : (s.clearSchedule).dvalid = s.dvalid := rfl
@[simp] theorem State.clearSchedule_err (s : State) : (s.clearSchedule).err = s.err := rfl
@[simp] theorem State.clearSchedule_pending (s : State) : (s.clearSchedule).pending = s.pending := rfl
@[simp] theorem State.clearSchedule_returned (s : State) : (s.clearSchedule).returned = s.returned := rfl

@[simp] theorem State.clearOperands_key (s : State) : (s.clearOperands).key = Vector.replicate 8 0 := rfl
@[simp] theorem State.clearOperands_din (s : State) : (s.clearOperands).din = Vector.replicate 4 0 := rfl
@[simp] theorem State.clearOperands_dout (s : State) : (s.clearOperands).dout = s.dout := rfl
@[simp] theorem State.clearOperands_rk (s : State) : (s.clearOperands).rk = s.rk := rfl
@[simp] theorem State.clearOperands_kvalid (s : State) : (s.clearOperands).kvalid = s.kvalid := rfl
@[simp] theorem State.clearOperands_kdir (s : State) : (s.clearOperands).kdir = s.kdir := rfl
@[simp] theorem State.clearOperands_nr (s : State) : (s.clearOperands).nr = s.nr := rfl
@[simp] theorem State.clearOperands_dvalid (s : State) : (s.clearOperands).dvalid = s.dvalid := rfl
@[simp] theorem State.clearOperands_err (s : State) : (s.clearOperands).err = s.err := rfl
@[simp] theorem State.clearOperands_pending (s : State) : (s.clearOperands).pending = s.pending := rfl
@[simp] theorem State.clearOperands_returned (s : State) : (s.clearOperands).returned = s.returned := rfl

@[simp] theorem State.raise_key (c : Cause) (s : State) : (s.raise c).key = s.key := rfl
@[simp] theorem State.raise_din (c : Cause) (s : State) : (s.raise c).din = s.din := rfl
@[simp] theorem State.raise_dout (c : Cause) (s : State) : (s.raise c).dout = s.dout := rfl
@[simp] theorem State.raise_rk (c : Cause) (s : State) : (s.raise c).rk = s.rk := rfl
@[simp] theorem State.raise_kvalid (c : Cause) (s : State) : (s.raise c).kvalid = s.kvalid := rfl
@[simp] theorem State.raise_kdir (c : Cause) (s : State) : (s.raise c).kdir = s.kdir := rfl
@[simp] theorem State.raise_nr (c : Cause) (s : State) : (s.raise c).nr = s.nr := rfl
@[simp] theorem State.raise_dvalid (c : Cause) (s : State) : (s.raise c).dvalid = s.dvalid := rfl
@[simp] theorem State.raise_err (c : Cause) (s : State) : (s.raise c).err = s.err ||| c.bit := rfl
@[simp] theorem State.raise_pending (c : Cause) (s : State) : (s.raise c).pending = s.pending := rfl
@[simp] theorem State.raise_returned (c : Cause) (s : State) : (s.raise c).returned = s.returned := rfl

@[simp] theorem State.resetCore_key (s : State) : (s.resetCore).key = Vector.replicate 8 0 := rfl
@[simp] theorem State.resetCore_din (s : State) : (s.resetCore).din = Vector.replicate 4 0 := rfl
@[simp] theorem State.resetCore_dout (s : State) : (s.resetCore).dout = Vector.replicate 4 0 := rfl
@[simp] theorem State.resetCore_rk (s : State) : (s.resetCore).rk = Vector.replicate 60 0 := rfl
@[simp] theorem State.resetCore_kvalid (s : State) : (s.resetCore).kvalid = false := rfl
@[simp] theorem State.resetCore_kdir (s : State) : (s.resetCore).kdir = false := rfl
@[simp] theorem State.resetCore_nr (s : State) : (s.resetCore).nr = 0 := rfl
@[simp] theorem State.resetCore_dvalid (s : State) : (s.resetCore).dvalid = false := rfl
@[simp] theorem State.resetCore_err (s : State) : (s.resetCore).err = 0 := rfl
@[simp] theorem State.resetCore_pending (s : State) : (s.resetCore).pending = s.pending := rfl
@[simp] theorem State.resetCore_returned (s : State) : (s.resetCore).returned = s.returned := rfl

@[simp] theorem State.giveBack_key (v : Word) (s : State) : (s.giveBack v).key = s.key := rfl
@[simp] theorem State.giveBack_din (v : Word) (s : State) : (s.giveBack v).din = s.din := rfl
@[simp] theorem State.giveBack_dout (v : Word) (s : State) : (s.giveBack v).dout = s.dout := rfl
@[simp] theorem State.giveBack_rk (v : Word) (s : State) : (s.giveBack v).rk = s.rk := rfl
@[simp] theorem State.giveBack_kvalid (v : Word) (s : State) : (s.giveBack v).kvalid = s.kvalid := rfl
@[simp] theorem State.giveBack_kdir (v : Word) (s : State) : (s.giveBack v).kdir = s.kdir := rfl
@[simp] theorem State.giveBack_nr (v : Word) (s : State) : (s.giveBack v).nr = s.nr := rfl
@[simp] theorem State.giveBack_dvalid (v : Word) (s : State) : (s.giveBack v).dvalid = s.dvalid := rfl
@[simp] theorem State.giveBack_err (v : Word) (s : State) : (s.giveBack v).err = s.err := rfl
@[simp] theorem State.giveBack_pending (v : Word) (s : State) : (s.giveBack v).pending = s.pending := rfl
@[simp] theorem State.giveBack_returned (v : Word) (s : State) : (s.giveBack v).returned = s.returned ++ [v] := rfl

@[simp] theorem State.setPending_key (es : List Event) (s : State) : (s.setPending es).key = s.key := rfl
@[simp] theorem State.setPending_din (es : List Event) (s : State) : (s.setPending es).din = s.din := rfl
@[simp] theorem State.setPending_dout (es : List Event) (s : State) : (s.setPending es).dout = s.dout := rfl
@[simp] theorem State.setPending_rk (es : List Event) (s : State) : (s.setPending es).rk = s.rk := rfl
@[simp] theorem State.setPending_kvalid (es : List Event) (s : State) : (s.setPending es).kvalid = s.kvalid := rfl
@[simp] theorem State.setPending_kdir (es : List Event) (s : State) : (s.setPending es).kdir = s.kdir := rfl
@[simp] theorem State.setPending_nr (es : List Event) (s : State) : (s.setPending es).nr = s.nr := rfl
@[simp] theorem State.setPending_dvalid (es : List Event) (s : State) : (s.setPending es).dvalid = s.dvalid := rfl
@[simp] theorem State.setPending_err (es : List Event) (s : State) : (s.setPending es).err = s.err := rfl
@[simp] theorem State.setPending_pending (es : List Event) (s : State) : (s.setPending es).pending = es := rfl
@[simp] theorem State.setPending_returned (es : List Event) (s : State) : (s.setPending es).returned = s.returned := rfl

/-- Two states are equal when all their fields are. -/
theorem State.ext_fields {s t : State} (h1 : s.key = t.key) (h2 : s.din = t.din) (h3 : s.dout = t.dout) (h4 : s.rk = t.rk)
    (h5 : s.kvalid = t.kvalid) (h6 : s.kdir = t.kdir) (h7 : s.nr = t.nr) (h8 : s.dvalid = t.dvalid) (h9 : s.err = t.err)
    (h10 : s.pending = t.pending) (h11 : s.returned = t.returned) : s = t := by
  cases s
  cases t
  simp_all

/-- Delivering nothing changes nothing: the pending list put back is the state. -/
@[simp] theorem State.setPending_self (s : State) : s.setPending s.pending = s := rfl

@[simp] theorem State.setPending_setPending (es es' : List Event) (s : State) :
    (s.setPending es').setPending es = s.setPending es := rfl

end Sys2Proof.Machine
end

