-- ==== Sys2Proof/Laws/Flags.lean ====
section
/-! SUPPORT. The error latch (60_exceptions.md R125, R126) bit by bit. -/

namespace Sys2Proof.Machine

/-- R125: the bit of a cause is the one at its code. -/
@[simp] theorem Cause.bit_getLsbD (c : Cause) (n : Nat) : c.bit.getLsbD n = decide (n = c.code) := by
  by_cases h : n < 4
  · cases c <;> interval_cases n <;> decide
  · rw [BitVec.getLsbD_of_ge _ _ (by omega)]
    have : n ≠ c.code := by cases c <;> simp [Cause.code] <;> omega
    simp [this]

/-- R126: raising sets the bit of the cause and leaves the others. -/
theorem State.raise_err_bit (c : Cause) (s : State) (n : Nat) :
    (s.raise c).err.getLsbD n = (s.err.getLsbD n || decide (n = c.code)) := by
  simp

/-- R126: a bit that is already set stays set. -/
@[simp] theorem State.raise_raise (c : Cause) (s : State) : (s.raise c).raise c = s.raise c := by
  simp [State.raise, BitVec.or_assoc]

end Sys2Proof.Machine
end

