-- ==== Sys2Proof/Laws/Operands.lean ====
section
/-! SUPPORT. The packing of bytes into words (00_scope.md R18) and the byte strings of the register files. -/

namespace Sys2Proof.Machine

@[simp] theorem byteOf_wordOf_zero (b0 b1 b2 b3 : Byte) : byteOf (wordOf b0 b1 b2 b3) 0 = b0 := by
  apply BitVec.eq_of_getLsbD_eq
  intro i hi
  simp only [byteOf, wordOf, BitVec.getLsbD_extractLsb', BitVec.getLsbD_or, BitVec.getLsbD_shiftLeft,
    BitVec.getLsbD_setWidth]
  interval_cases i <;> simp

@[simp] theorem byteOf_wordOf_one (b0 b1 b2 b3 : Byte) : byteOf (wordOf b0 b1 b2 b3) 1 = b1 := by
  apply BitVec.eq_of_getLsbD_eq
  intro i hi
  simp only [byteOf, wordOf, BitVec.getLsbD_extractLsb', BitVec.getLsbD_or, BitVec.getLsbD_shiftLeft,
    BitVec.getLsbD_setWidth]
  interval_cases i <;> simp

@[simp] theorem byteOf_wordOf_two (b0 b1 b2 b3 : Byte) : byteOf (wordOf b0 b1 b2 b3) 2 = b2 := by
  apply BitVec.eq_of_getLsbD_eq
  intro i hi
  simp only [byteOf, wordOf, BitVec.getLsbD_extractLsb', BitVec.getLsbD_or, BitVec.getLsbD_shiftLeft,
    BitVec.getLsbD_setWidth]
  interval_cases i <;> simp

@[simp] theorem byteOf_wordOf_three (b0 b1 b2 b3 : Byte) : byteOf (wordOf b0 b1 b2 b3) 3 = b3 := by
  apply BitVec.eq_of_getLsbD_eq
  intro i hi
  simp only [byteOf, wordOf, BitVec.getLsbD_extractLsb', BitVec.getLsbD_or, BitVec.getLsbD_shiftLeft,
    BitVec.getLsbD_setWidth]
  interval_cases i <;> simp

/-- A word is the packing of its four bytes. -/
@[simp] theorem wordOf_byteOf (w : Word) : wordOf (byteOf w 0) (byteOf w 1) (byteOf w 2) (byteOf w 3) = w := by
  apply BitVec.eq_of_getLsbD_eq
  intro i hi
  simp only [byteOf, wordOf, BitVec.getLsbD_extractLsb', BitVec.getLsbD_or, BitVec.getLsbD_shiftLeft,
    BitVec.getLsbD_setWidth]
  interval_cases i <;> simp

/-- Bytes of an exclusive-or of words. -/
@[simp] theorem byteOf_xor (v w : Word) (j : Nat) : byteOf (v ^^^ w) j = byteOf v j ^^^ byteOf w j := by
  simp [byteOf, BitVec.extractLsb'_xor]

@[simp] theorem byteOf_zero (j : Nat) : byteOf 0 j = 0 := by
  simp [byteOf]

@[simp] theorem blockOf_getElem (file : Vector Word 4) (k : Nat) (h : k < 16) :
    (blockOf file)[k] = byteOf (file[k / 4]) (k % 4) := by
  simp [blockOf]

@[simp] theorem wordsOf_getElem (b : Block) (j : Nat) (h : j < 4) :
    (wordsOf b)[j] = wordOf (b[4 * j]) (b[4 * j + 1]) (b[4 * j + 2]) (b[4 * j + 3]) := by
  simp [wordsOf]

/-- R19: the words of the bytes of a register file are the file. -/
@[simp] theorem wordsOf_blockOf (file : Vector Word 4) : wordsOf (blockOf file) = file := by
  ext j hj
  interval_cases j <;> simp

/-- R19: the bytes of the words of a block are the block. -/
@[simp] theorem blockOf_wordsOf (b : Block) : blockOf (wordsOf b) = b := by
  ext1 k hk
  rw [blockOf_getElem]
  interval_cases k <;> simp

@[simp] theorem fileBytes_length (file : List Word) (n : Nat) : (fileBytes file n).length = min n (4 * file.length) := by
  have h : (file.flatMap wordBytes).length = 4 * file.length := by
    induction file with
    | nil => rfl
    | cons w ws ih => simp [List.flatMap_cons, wordBytes, ih]; omega
  simp [fileBytes, h]

/-- The legal lengths, one by one (R100). -/
theorem legalKeyLength_iff (klen : BitVec 8) : legalKeyLength klen = true ↔ klen = 16 ∨ klen = 24 ∨ klen = 32 := by
  simp [legalKeyLength, or_assoc]

/-- The first words of a register file are the words of its first bytes. -/
theorem packWords_fileBytes (file : List Word) (m : Nat) : packWords (fileBytes file (4 * m)) = file.take m := by
  induction m generalizing file with
  | zero => simp [fileBytes, packWords]
  | succ m ih =>
    cases file with
    | nil => simp [fileBytes, packWords]
    | cons w ws =>
      have h : fileBytes (w :: ws) (4 * (m + 1)) =
          byteOf w 0 :: byteOf w 1 :: byteOf w 2 :: byteOf w 3 :: fileBytes ws (4 * m) := by
        simp [fileBytes, wordBytes, Nat.mul_add]
      rw [h, packWords, wordOf_byteOf, ih]
      simp

/-- R19: byte `k` of a register file is byte `k mod 4` of its word `k div 4`. -/
theorem flatMap_wordBytes_getElem? (file : List Word) (k : Nat) :
    (file.flatMap wordBytes)[k]? = file[k / 4]?.map (fun w => byteOf w (k % 4)) := by
  induction file generalizing k with
  | nil => simp
  | cons w ws ih =>
    by_cases hk : k < 4
    · rw [List.flatMap_cons, List.getElem?_append_left (by simpa [wordBytes] using hk), Nat.div_eq_of_lt hk,
        Nat.mod_eq_of_lt hk]
      interval_cases k <;> rfl
    · obtain ⟨m, rfl⟩ : ∃ m, k = m + 4 := ⟨k - 4, by omega⟩
      rw [List.flatMap_cons, List.getElem?_append_right (by simp [wordBytes]), show (m + 4) / 4 = m / 4 + 1 by omega]
      simpa [wordBytes] using ih m

theorem packWords_length (x : List Byte) (n : Nat) (hx : x.length = 4 * n) : (packWords x).length = n := by
  induction n generalizing x with
  | zero =>
    simp only [Nat.mul_zero, List.length_eq_zero_iff] at hx
    subst hx
    rfl
  | succ n ih =>
    rcases x with _ | ⟨b0, _ | ⟨b1, _ | ⟨b2, _ | ⟨b3, r⟩⟩⟩⟩ <;> simp at hx <;> try omega
    simp [packWords, ih r (by omega)]

/-- R18: word `i` of a byte string of whole words. -/
theorem packWords_getD (x : List Byte) (n i : Nat) (hx : x.length = 4 * n) (hi : i < n) :
    (packWords x).getD i 0 =
      wordOf (x.getD (4 * i) 0) (x.getD (4 * i + 1) 0) (x.getD (4 * i + 2) 0) (x.getD (4 * i + 3) 0) := by
  induction n generalizing x i with
  | zero => omega
  | succ n ih =>
    rcases x with _ | ⟨b0, _ | ⟨b1, _ | ⟨b2, _ | ⟨b3, r⟩⟩⟩⟩ <;> simp at hx <;> try omega
    cases i with
    | zero => simp [packWords]
    | succ i =>
      have := ih r i (by omega) (by omega)
      simp only [packWords, List.getD_cons_succ, Nat.mul_add] at *
      rw [this]

end Sys2Proof.Machine
end

