-- ==== Sys2Proof/Laws/Commands.lean ====
section
/-! SUPPORT. Everything the shared operations of the commands can do (Machine/KeyExpand.lean, Machine/BlockCommand.lean). -/

namespace Sys2Proof.Machine

/-- R100 to R102: a key command either replaces the slot or fails, by `klen` alone. -/
theorem keyCommand_cases (expand : List Byte → Nat → Schedule) (order : Bool) (klen : BitVec 8) (s : State) :
    (legalKeyLength klen = true ∧ keyCommand expand order klen s =
      s.setSchedule (expand (keyBytes s.key klen.toNat) (keyWords klen)) (BitVec.ofNat 4 (roundCount (keyWords klen))) order) ∨
    (legalKeyLength klen = false ∧ keyCommand expand order klen s = failKeyCommand s) := by
  unfold keyCommand
  cases h : legalKeyLength klen <;> simp

theorem keyCommand_legal {expand : List Byte → Nat → Schedule} {order : Bool} {klen : BitVec 8} {s : State}
    (h : legalKeyLength klen = true) : keyCommand expand order klen s =
      s.setSchedule (expand (keyBytes s.key klen.toNat) (keyWords klen)) (BitVec.ofNat 4 (roundCount (keyWords klen))) order := by
  simp [keyCommand, h]

theorem keyCommand_illegal {expand : List Byte → Nat → Schedule} {order : Bool} {klen : BitVec 8} {s : State}
    (h : legalKeyLength klen = false) : keyCommand expand order klen s = failKeyCommand s := by
  simp [keyCommand, h]

/-- The slot holds a schedule of this order exactly when the two tags say so. -/
theorem State.holdsSchedule_iff (order : Bool) (s : State) :
    s.holdsSchedule order = true ↔ s.kvalid = true ∧ s.kdir = order := by
  simp [State.holdsSchedule]

/-- R110, R111, R115, R116: a block command either writes a result or fails, by the tags alone. -/
theorem blockCommand_cases (run : Block → Schedule → Nat → Block) (order : Bool) (s : State) :
    (s.holdsSchedule order = true ∧ blockCommand run order s = s.setResult (wordsOf (run (blockOf s.din) s.rk s.nr.toNat))) ∨
    (s.holdsSchedule order = false ∧ blockCommand run order s = failBlockCommand s) := by
  unfold blockCommand
  cases h : s.holdsSchedule order <;> simp

theorem blockCommand_ready {run : Block → Schedule → Nat → Block} {order : Bool} {s : State}
    (h : s.holdsSchedule order = true) :
    blockCommand run order s = s.setResult (wordsOf (run (blockOf s.din) s.rk s.nr.toNat)) := by
  simp [blockCommand, h]

theorem blockCommand_notReady {run : Block → Schedule → Nat → Block} {order : Bool} {s : State}
    (h : s.holdsSchedule order = false) : blockCommand run order s = failBlockCommand s := by
  simp [blockCommand, h]

/-- What a command leaves behind, by constructor: the inversion lemma of `exec`. -/
theorem exec_cases {i : Instr} {s t : State} (h : exec i s = .next t) :
    (∃ klen, i = .kexpE klen ∧ t = keyCommand expandEnc false klen s) ∨
    (∃ klen, i = .kexpD klen ∧ t = keyCommand expandDec true klen s) ∨
    (i = .enc ∧ t = blockCommand cipher false s) ∨
    (i = .dec ∧ t = blockCommand eqInvCipher true s) ∨
    (i = .wipe ∧ t = s.clearOperands.clearResult.clearSchedule) := by
  cases i <;>
    simp only [exec, execKexpE, execKexpD, execEnc, execDec, execWipe, Host.Outcome.next.injEq] at h <;> subst h <;> simp

/-- R125: what a command can do to the error latch: nothing, or raise `ERR.KEYLEN`, or raise `ERR.NOKEY`. -/
theorem exec_err {i : Instr} {s t : State} (h : exec i s = .next t) :
    t.err = s.err ∨ t.err = (s.raise .invalidKeyLength).err ∨ t.err = (s.raise .noSchedule).err := by
  rcases exec_cases h with ⟨klen, -, rfl⟩ | ⟨klen, -, rfl⟩ | ⟨-, rfl⟩ | ⟨-, rfl⟩ | ⟨-, rfl⟩
  · rcases keyCommand_cases expandEnc false klen s with ⟨-, e⟩ | ⟨-, e⟩ <;> simp [e, failKeyCommand]
  · rcases keyCommand_cases expandDec true klen s with ⟨-, e⟩ | ⟨-, e⟩ <;> simp [e, failKeyCommand]
  · rcases blockCommand_cases cipher false s with ⟨-, e⟩ | ⟨-, e⟩ <;> simp [e, failBlockCommand]
  · rcases blockCommand_cases eqInvCipher true s with ⟨-, e⟩ | ⟨-, e⟩ <;> simp [e, failBlockCommand]
  · simp

/-- R31: no command reads or writes the host's own two lists. -/
theorem exec_host_lists {i : Instr} {s t : State} (h : exec i s = .next t) :
    t.pending = s.pending ∧ t.returned = s.returned := by
  rcases exec_cases h with ⟨klen, -, rfl⟩ | ⟨klen, -, rfl⟩ | ⟨-, rfl⟩ | ⟨-, rfl⟩ | ⟨-, rfl⟩
  · rcases keyCommand_cases expandEnc false klen s with ⟨-, e⟩ | ⟨-, e⟩ <;> simp [e, failKeyCommand]
  · rcases keyCommand_cases expandDec true klen s with ⟨-, e⟩ | ⟨-, e⟩ <;> simp [e, failKeyCommand]
  · rcases blockCommand_cases cipher false s with ⟨-, e⟩ | ⟨-, e⟩ <;> simp [e, failBlockCommand]
  · rcases blockCommand_cases eqInvCipher true s with ⟨-, e⟩ | ⟨-, e⟩ <;> simp [e, failBlockCommand]
  · simp

end Sys2Proof.Machine
end

