-- ==== Sys2Proof/Laws/Decode.lean ====
section
/-! SUPPORT. The fields of a command word as numbers, and the inversion lemma of `decode` (30_encoding.md R60 to R65). -/

namespace Sys2Proof

theorem opField_eq_iff (v : Word) (n : Nat) (h : n < 256) : opField v = BitVec.ofNat 8 n ↔ v.toNat % 256 = n := by
  rw [← BitVec.toNat_inj]
  simp [opField, BitVec.extractLsb'_toNat, Nat.mod_eq_of_lt h]

theorem zField_eq_zero_iff (v : Word) : zField v = 0 ↔ v.toNat < 65536 := by
  rw [← BitVec.toNat_inj]
  have := v.isLt
  simp [zField, BitVec.extractLsb'_toNat, Nat.shiftRight_eq_div_pow]
  omega

theorem plainHighField_eq_zero_iff (v : Word) : plainHighField v = 0 ↔ v.toNat < 256 := by
  rw [← BitVec.toNat_inj]
  have := v.isLt
  simp [plainHighField, BitVec.extractLsb'_toNat, Nat.shiftRight_eq_div_pow]
  omega

theorem klenField_toNat (v : Word) : (klenField v).toNat = v.toNat / 256 % 256 := by
  simp [klenField, BitVec.extractLsb'_toNat, Nat.shiftRight_eq_div_pow]

/-- The number a format K word spells. -/
theorem encodeKey_toNat (op klen : BitVec 8) : (encodeKey op klen).toNat = klen.toNat * 256 + op.toNat := by
  have h1 := klen.isLt
  have h2 := op.isLt
  rw [encodeKey, BitVec.toNat_or, BitVec.toNat_shiftLeft]
  simp only [BitVec.toNat_setWidth]
  rw [Nat.mod_eq_of_lt (show klen.toNat < 2 ^ 32 by omega), Nat.mod_eq_of_lt (show op.toNat < 2 ^ 32 by omega),
    Nat.shiftLeft_eq, Nat.mod_eq_of_lt (by omega), Nat.mul_comm, ← Nat.two_pow_add_eq_or_of_lt (by omega)]

/-- What a word that decodes to a command looks like: one case per arm of R62. -/
theorem decode_command_cases {v : Word} {i : Instr} (h : decode v = .command i) :
    (i = .kexpE (klenField v) ∧ v.toNat % 256 = 1 ∧ v.toNat < 65536) ∨
    (i = .kexpD (klenField v) ∧ v.toNat % 256 = 2 ∧ v.toNat < 65536) ∨
    (i = .enc ∧ v.toNat = 3) ∨ (i = .dec ∧ v.toNat = 4) ∨ (i = .wipe ∧ v.toNat = 5) := by
  have e : ∀ n, n < 256 → (opField v = BitVec.ofNat 8 n ↔ v.toNat % 256 = n) := opField_eq_iff v
  unfold decode decodeKey decodePlain at h
  split at h
  · rename_i h1
    split at h
    · rename_i h2
      exact .inl ⟨by simpa using h.symm, (e 1 (by omega)).1 h1, (zField_eq_zero_iff v).1 h2⟩
    · cases h
  · split at h
    · rename_i h1
      split at h
      · rename_i h2
        exact .inr (.inl ⟨by simpa using h.symm, (e 2 (by omega)).1 h1, (zField_eq_zero_iff v).1 h2⟩)
      · cases h
    · split at h
      · rename_i h1
        split at h
        · rename_i h2
          have := (e 3 (by omega)).1 h1
          have := (plainHighField_eq_zero_iff v).1 h2
          exact .inr (.inr (.inl ⟨by simpa using h.symm, by omega⟩))
        · cases h
      · split at h
        · rename_i h1
          split at h
          · rename_i h2
            have := (e 4 (by omega)).1 h1
            have := (plainHighField_eq_zero_iff v).1 h2
            exact .inr (.inr (.inr (.inl ⟨by simpa using h.symm, by omega⟩)))
          · cases h
        · split at h
          · rename_i h1
            split at h
            · rename_i h2
              have := (e 5 (by omega)).1 h1
              have := (plainHighField_eq_zero_iff v).1 h2
              exact .inr (.inr (.inr (.inr ⟨by simpa using h.symm, by omega⟩)))
            · cases h
          · cases h

end Sys2Proof
end

