-- ==== Sys2Proof/Laws/PerInstr.lean ====
section
/-! SUPPORT. Laws made per instruction. `OpcodeRow`: the word of a command matches the command's own row of the opcode map
(30_encoding.md R64): its fixed bits are the row's, whatever its operand. -/

namespace Sys2Proof.Laws.OpcodeRow

/-- The encoding of the instruction has the fixed bits of its row. -/
def Statement (i : Instr) : Prop := encode i &&& (tableRow i).mask = (tableRow i).value

/-- The `klen` bits of a format K word lie outside the row's mask. -/
theorem encodeKey_masked (op klen : BitVec 8) : encodeKey op klen &&& 0xFFFF00FF = op.setWidth 32 := by
  apply BitVec.eq_of_getLsbD_eq
  intro n hn
  simp only [encodeKey, BitVec.getLsbD_and, BitVec.getLsbD_or, BitVec.getLsbD_shiftLeft, BitVec.getLsbD_setWidth]
  interval_cases n <;> simp

theorem kexpE (klen : BitVec 8) : Statement (.kexpE klen) := encodeKey_masked 0x01 klen

theorem kexpD (klen : BitVec 8) : Statement (.kexpD klen) := encodeKey_masked 0x02 klen

theorem enc : Statement .enc := by unfold Statement; decide

theorem dec : Statement .dec := by unfold Statement; decide

theorem wipe : Statement .wipe := by unfold Statement; decide

end Sys2Proof.Laws.OpcodeRow
end

