-- ==== Sys2Proof/Laws/Window.lean ====
section
/-! SUPPORT. The window map by word index (20_memory.md R42), and everything an event can come to (R45 to R47, R145). -/

namespace Sys2Proof.Machine

theorem writeTarget_command {i : BitVec 6} (h : i.toNat = 0) : writeTarget i = .command := by
  simp [writeTarget, h]

theorem writeTarget_key {i : BitVec 6} (j : Fin 8) (h : i.toNat = 4 + j.val) : writeTarget i = .key j := by
  have := j.isLt
  unfold writeTarget
  rw [if_neg (by omega), dif_pos (by omega)]
  congr 1
  apply Fin.ext
  simp [h]

theorem writeTarget_din {i : BitVec 6} (j : Fin 4) (h : i.toNat = 12 + j.val) : writeTarget i = .din j := by
  have := j.isLt
  unfold writeTarget
  rw [if_neg (by omega), dif_neg (by omega), dif_pos (by omega)]
  congr 1
  apply Fin.ext
  simp [h]

/-- R47: the slots that are not writable. -/
theorem writeTarget_notPermitted {i : BitVec 6} (h0 : i.toNat ≠ 0) (h1 : i.toNat < 4 ∨ 15 < i.toNat) :
    writeTarget i = .notPermitted := by
  unfold writeTarget
  rw [if_neg h0, dif_neg (by omega), dif_neg (by omega)]

/-- Where a write goes, by the word index. -/
theorem writeTarget_cases (i : BitVec 6) :
    (i.toNat = 0 ∧ writeTarget i = .command) ∨
    (∃ j : Fin 8, i.toNat = 4 + j.val ∧ writeTarget i = .key j) ∨
    (∃ j : Fin 4, i.toNat = 12 + j.val ∧ writeTarget i = .din j) ∨
    (i.toNat ≠ 0 ∧ (i.toNat < 4 ∨ 15 < i.toNat) ∧ writeTarget i = .notPermitted) := by
  by_cases h0 : i.toNat = 0
  · exact .inl ⟨h0, writeTarget_command h0⟩
  by_cases h1 : i.toNat < 4 ∨ 15 < i.toNat
  · exact .inr (.inr (.inr ⟨h0, h1, writeTarget_notPermitted h0 h1⟩))
  by_cases h2 : i.toNat ≤ 11
  · exact .inr (.inl ⟨⟨i.toNat - 4, by omega⟩, by simp; omega, writeTarget_key _ (by simp; omega)⟩)
  · exact .inr (.inr (.inl ⟨⟨i.toNat - 12, by omega⟩, by simp; omega, writeTarget_din _ (by simp; omega)⟩))

theorem readTarget_status {i : BitVec 6} (h : i.toNat = 1) : readTarget i = .status := by
  simp [readTarget, h]

theorem readTarget_din {i : BitVec 6} (j : Fin 4) (h : i.toNat = 12 + j.val) : readTarget i = .din j := by
  have := j.isLt
  unfold readTarget
  rw [if_neg (by omega), dif_pos (by omega)]
  congr 1
  apply Fin.ext
  simp [h]

theorem readTarget_dout {i : BitVec 6} (j : Fin 4) (h : i.toNat = 16 + j.val) : readTarget i = .dout j := by
  have := j.isLt
  unfold readTarget
  rw [if_neg (by omega), dif_neg (by omega), dif_pos (by omega)]
  congr 1
  apply Fin.ext
  simp [h]

/-- R47: the slots that are not readable. -/
theorem readTarget_notPermitted {i : BitVec 6} (h1 : i.toNat ≠ 1) (h2 : i.toNat < 12 ∨ 19 < i.toNat) :
    readTarget i = .notPermitted := by
  unfold readTarget
  rw [if_neg h1, dif_neg (by omega), dif_neg (by omega)]

/-- What a read reads, by the word index. -/
theorem readTarget_cases (i : BitVec 6) :
    (i.toNat = 1 ∧ readTarget i = .status) ∨
    (∃ j : Fin 4, i.toNat = 12 + j.val ∧ readTarget i = .din j) ∨
    (∃ j : Fin 4, i.toNat = 16 + j.val ∧ readTarget i = .dout j) ∨
    (i.toNat ≠ 1 ∧ (i.toNat < 12 ∨ 19 < i.toNat) ∧ readTarget i = .notPermitted) := by
  by_cases h1 : i.toNat = 1
  · exact .inl ⟨h1, readTarget_status h1⟩
  by_cases h2 : i.toNat < 12 ∨ 19 < i.toNat
  · exact .inr (.inr (.inr ⟨h1, h2, readTarget_notPermitted h1 h2⟩))
  by_cases h3 : i.toNat ≤ 15
  · exact .inr (.inl ⟨⟨i.toNat - 12, by omega⟩, by simp; omega, readTarget_din _ (by simp; omega)⟩)
  · exact .inr (.inr (.inl ⟨⟨i.toNat - 16, by omega⟩, by simp; omega, readTarget_dout _ (by simp; omega)⟩))

end Sys2Proof.Machine
end

