-- ==== Sys2Proof/Laws/Step.lean ====
section
/-! SUPPORT. Everything a step can do, said once (00_scope.md R13; 20_memory.md R45 to R47; 70_reset_and_hazards.md R145). -/

namespace Sys2Proof.Machine

theorem step_idle {s : State} (h : s.pending = []) : step s = .next s := by
  simp [step, nextAction, h]

theorem step_deliver {s : State} {e : Event} {rest : List Event} (h : s.pending = e :: rest) :
    step s = (match deliver e (s.setPending rest) with
      | .run i t => exec i t
      | .done t => .next t) := by
  unfold step nextAction
  rw [h] <;> rfl

theorem step_command {s : State} {i : BitVec 6} {v : Word} {c : Instr} {rest : List Event} (h : s.pending = .wr i v :: rest)
    (hi : i.toNat = 0) (hd : decode v = .command c) : step s = exec c (s.setPending rest) := by
  simp [step_deliver h, deliver, writeSlot, writeTarget_command hi, writeCommand, hd]

theorem step_illegal {s : State} {i : BitVec 6} {v : Word} {r : IllegalWord} {rest : List Event}
    (h : s.pending = .wr i v :: rest) (hi : i.toNat = 0) (hd : decode v = .illegal r) :
    step s = .next ((s.setPending rest).raise .illegalCommand) := by
  simp [step_deliver h, deliver, writeSlot, writeTarget_command hi, writeCommand, hd]

theorem step_write_key {s : State} {i : BitVec 6} {v : Word} {rest : List Event} (h : s.pending = .wr i v :: rest)
    (j : Fin 8) (hj : i.toNat = 4 + j.val) : step s = .next ((s.setPending rest).setKey j v) := by
  simp [step_deliver h, deliver, writeSlot, writeTarget_key j hj]

theorem step_write_din {s : State} {i : BitVec 6} {v : Word} {rest : List Event} (h : s.pending = .wr i v :: rest)
    (j : Fin 4) (hj : i.toNat = 12 + j.val) : step s = .next ((s.setPending rest).setDin j v) := by
  simp [step_deliver h, deliver, writeSlot, writeTarget_din j hj]

theorem step_write_notPermitted {s : State} {i : BitVec 6} {v : Word} {rest : List Event} (h : s.pending = .wr i v :: rest)
    (h0 : i.toNat ≠ 0) (h1 : i.toNat < 4 ∨ 15 < i.toNat) :
    step s = .next ((s.setPending rest).raise .accessError) := by
  simp [step_deliver h, deliver, writeSlot, writeTarget_notPermitted h0 h1]

theorem step_read {s : State} {i : BitVec 6} {rest : List Event} (h : s.pending = .rd i :: rest) :
    step s = .next (readSlot i (s.setPending rest)) := by
  simp [step_deliver h, deliver]

theorem step_reset {s : State} {rest : List Event} (h : s.pending = .reset :: rest) :
    step s = .next (s.setPending rest).resetCore := by
  simp [step_deliver h, deliver]

/-- What a read does, by the word index (R46, R47). -/
theorem readSlot_cases (i : BitVec 6) (s : State) :
    (i.toNat = 1 ∧ readSlot i s = s.giveBack s.status) ∨
    (∃ j : Fin 4, i.toNat = 12 + j.val ∧ readSlot i s = s.giveBack s.din[j]) ∨
    (∃ j : Fin 4, i.toNat = 16 + j.val ∧ readSlot i s = s.giveBack s.dout[j]) ∨
    (i.toNat ≠ 1 ∧ (i.toNat < 12 ∨ 19 < i.toNat) ∧ readSlot i s = (s.raise .accessError).giveBack 0) := by
  rcases readTarget_cases i with ⟨h, e⟩ | ⟨j, h, e⟩ | ⟨j, h, e⟩ | ⟨h, h', e⟩
  · exact .inl ⟨h, by simp [readSlot, readEffect, readValue, e]⟩
  · exact .inr (.inl ⟨j, h, by simp [readSlot, readEffect, readValue, e]⟩)
  · exact .inr (.inr (.inl ⟨j, h, by simp [readSlot, readEffect, readValue, e]⟩))
  · exact .inr (.inr (.inr ⟨h, h', by simp [readSlot, readEffect, readValue, e]⟩))

/-- The inversion lemma of `step`: the whole of what it can do. -/
theorem step_cases {s t : State} (h : step s = .next t) :
    (s.pending = [] ∧ t = s) ∨
    (∃ rest, s.pending = .reset :: rest ∧ t = (s.setPending rest).resetCore) ∨
    (∃ i rest, s.pending = .rd i :: rest ∧ t = readSlot i (s.setPending rest)) ∨
    (∃ i v rest, s.pending = .wr i v :: rest ∧
      ((i.toNat = 0 ∧ ∃ c, decode v = .command c ∧ exec c (s.setPending rest) = .next t) ∨
       (i.toNat = 0 ∧ ∃ r, decode v = .illegal r ∧ t = (s.setPending rest).raise .illegalCommand) ∨
       (∃ j : Fin 8, i.toNat = 4 + j.val ∧ t = (s.setPending rest).setKey j v) ∨
       (∃ j : Fin 4, i.toNat = 12 + j.val ∧ t = (s.setPending rest).setDin j v) ∨
       (i.toNat ≠ 0 ∧ (i.toNat < 4 ∨ 15 < i.toNat) ∧ t = (s.setPending rest).raise .accessError))) := by
  rcases hp : s.pending with _ | ⟨e, rest⟩
  · rw [step_idle hp] at h
    exact .inl ⟨rfl, by simpa using h.symm⟩
  · cases e with
    | reset =>
      rw [step_reset hp] at h
      exact .inr (.inl ⟨rest, rfl, by simpa using h.symm⟩)
    | rd i =>
      rw [step_read hp] at h
      exact .inr (.inr (.inl ⟨i, rest, rfl, by simpa using h.symm⟩))
    | wr i v =>
      refine .inr (.inr (.inr ⟨i, v, rest, rfl, ?_⟩))
      rcases writeTarget_cases i with ⟨hi, -⟩ | ⟨j, hj, -⟩ | ⟨j, hj, -⟩ | ⟨h0, h1, -⟩
      · cases hd : decode v with
        | command c =>
          rw [step_command hp hi hd] at h
          exact .inl ⟨hi, c, rfl, h⟩
        | illegal r =>
          rw [step_illegal hp hi hd] at h
          exact .inr (.inl ⟨hi, r, rfl, by simpa using h.symm⟩)
      · rw [step_write_key hp j hj] at h
        exact .inr (.inr (.inl ⟨j, hj, by simpa using h.symm⟩))
      · rw [step_write_din hp j hj] at h
        exact .inr (.inr (.inr (.inl ⟨j, hj, by simpa using h.symm⟩)))
      · rw [step_write_notPermitted hp h0 h1] at h
        exact .inr (.inr (.inr (.inr ⟨h0, h1, by simpa using h.symm⟩)))

end Sys2Proof.Machine
end

