-- ==== Sys2Proof/Laws/Script.lean ====
section
/-! SUPPORT. What a run is made of, step by step (70_reset_and_hazards.md R150), and what the names of a script stand for
(30_encoding.md R68). -/

namespace Sys2Proof.Machine

theorem run_zero (s : State) : core.run 0 s = .next s := rfl

/-- A run of one more step. -/
theorem run_succ {s t : State} (k : Nat) (h : step s = .next t) : core.run (k + 1) s = core.run k t := by
  have hc : core.step s = .next t := h
  simp only [Host.Core.run, hc]

/-- R45: a `WR` returns nothing. -/
theorem step_write_returned {s t : State} {i : BitVec 6} {v : Word} {rest : List Event} (hp : s.pending = .wr i v :: rest)
    (h : step s = .next t) : t.returned = s.returned := by
  rcases step_cases h with ⟨h', rfl⟩ | ⟨r, h', rfl⟩ | ⟨j, r, h', rfl⟩ | ⟨j, w, r, h', hc⟩
  · rfl
  · simp [hp] at h'
  · simp [hp] at h'
  · rcases hc with ⟨-, c, -, hx⟩ | ⟨-, r, -, rfl⟩ | ⟨j, -, rfl⟩ | ⟨j, -, rfl⟩ | ⟨-, -, rfl⟩
    · simpa using (exec_host_lists hx).2
    all_goals simp

/-- R46: a `RD` returns one value, that of its slot. -/
theorem step_read_returned {s t : State} {i : BitVec 6} {rest : List Event} (hp : s.pending = .rd i :: rest)
    (h : step s = .next t) : t.returned = s.returned ++ [readValue i (s.setPending rest)] := by
  rw [step_read hp] at h
  cases h
  unfold readSlot readEffect
  cases readTarget i <;> rfl

/-- R68: a well-formed line stands for one transaction, a `RD` exactly if the line binds a name. -/
theorem lineEvent_cases {l : Line} (h : l.wellFormed = true) :
    (∃ i v, lineEvent l = some (.wr i v) ∧ lineName l = none) ∨
    (∃ i name, lineEvent l = some (.rd i) ∧ lineName l = some name) := by
  cases l <;> simp [lineEvent, lineName, h]

theorem lineEvent_illFormed {l : Line} (h : l.wellFormed = false) : lineEvent l = none := by
  simp [lineEvent, h]

@[simp] theorem lookupName_nil (name : String) : lookupName name [] = none := rfl

/-- R68: a name stands for its last value. -/
@[simp] theorem lookupName_cons (name n : String) (v : Word) (rest : List (String × Word)) :
    lookupName name ((n, v) :: rest) = (lookupName name rest).orElse fun _ => if n = name then some v else none := rfl

end Sys2Proof.Machine
end

