-- ==== Sys2Proof/Tests/Slice0.lean ====
section
/-! SUPPORT. Tests: the smoke of the well-formedness checks, the decoding of words written out from the spec, one-step tests
whose expected values are the spec's, and for every obligation with hypotheses a witness that meets them. -/

open Sys2Proof Sys2Proof.Machine

namespace Sys2Proof.Tests

/-- The state an outcome reaches. -/
def reached : Host.Outcome State Fault Refusal → Option State
  | .next s => some s
  | .fault _ => none
  | .refused _ => none

/-- Reset, with these events pending. -/
def waiting (es : List Event) : State := { State.reset with pending := es }

/-- The bytes `00 01 .. 1f` in `KEY` (95_test_vectors.md section 2.2). -/
def countingKey : Vector Word 8 :=
  #v[0x00010203, 0x04050607, 0x08090a0b, 0x0c0d0e0f, 0x10111213, 0x14151617, 0x18191a1b, 0x1c1d1e1f]

/-- The block `00 11 .. ff` (95_test_vectors.md section 2.6, `B`). -/
def plainBlock : Vector Word 4 := #v[0x00112233, 0x44556677, 0x8899aabb, 0xccddeeff]

/-- A state holding the schedule of the all-zero 16-byte key in the given order, with a result and with `DIN` zero. -/
def zeroKeyState (order : Bool) : State :=
  { State.reset with
    rk := (if order then expandDec else expandEnc) (List.replicate 16 0) 4
    kvalid := true
    kdir := order
    nr := 10
    dvalid := true
    dout := plainBlock }

/-! ### Well-formedness: an ill-formed term for each check -/

theorem test_wellFormed_slot : Line.wellFormed (.wr 63 0) = true ∧ Line.wellFormed (.wr 64 0) = false ∧
    Line.wellFormed (.rd 63 "x") = true ∧ Line.wellFormed (.rd 64 "x") = false := by decide
theorem test_wellFormed_value : Line.wellFormed (.wr 0 4294967295) = true ∧ Line.wellFormed (.wr 0 4294967296) = false := by
  decide
theorem test_wellFormed_klen : Line.wellFormed (.kexpE 255) = true ∧ Line.wellFormed (.kexpE 256) = false ∧
    Line.wellFormed (.kexpD 255) = true ∧ Line.wellFormed (.kexpD 256) = false := by decide
theorem test_wellFormed_plain_lines : Line.wellFormed .enc = true ∧ Line.wellFormed .dec = true ∧
    Line.wellFormed .wipe = true := by decide
theorem test_wellFormed_ldKey : Pseudo.wellFormed (.ldKey (List.replicate 24 0)) = true ∧
    Pseudo.wellFormed (.ldKey (List.replicate 20 0)) = false := by decide
theorem test_wellFormed_ldBlk : Pseudo.wellFormed (.ldBlk (List.replicate 16 0)) = true ∧
    Pseudo.wellFormed (.ldBlk (List.replicate 15 0)) = false := by decide
theorem test_wellFormed_cook : Pseudo.wellFormed (.cookEncryptKey (List.replicate 17 0)) = true ∧
    Pseudo.wellFormed (.cookEncryptKey (List.replicate 256 0)) = false ∧
    Pseudo.wellFormed (.cookDecryptKey (List.replicate 256 0)) = false ∧
    Pseudo.wellFormed (.keyExpand true (List.replicate 256 0)) = false := by decide +kernel
theorem test_wellFormed_block_ops : Pseudo.wellFormed (.encryptBlock (List.replicate 17 0) "y") = false ∧
    Pseudo.wellFormed (.decryptBlock (List.replicate 0 0) "y") = false ∧ Pseudo.wellFormed (.stBlk "y") = true := by decide
theorem test_wellFormed_ill_formed_line_has_no_event : lineEvent (.wr 64 0) = none ∧ lineEvent (.kexpD 256) = none := by decide

/-! ### Decoding: words written out bit by bit from 30_encoding.md R61, R64 and 95_test_vectors.md section 2.7 -/

theorem test_decode_kexpE : decode 0b00000000000000000001100000000001#32 = .command (.kexpE 24) := by decide
theorem test_decode_kexpE_zero : decode 0b00000000000000000000000000000001#32 = .command (.kexpE 0) := by decide
theorem test_decode_kexpD : decode 0b00000000000000000001000000000010#32 = .command (.kexpD 16) := by decide
theorem test_decode_kexpD_max : decode 0b00000000000000001111111100000010#32 = .command (.kexpD 255) := by decide
theorem test_decode_enc : decode 0b00000000000000000000000000000011#32 = .command .enc := by decide
theorem test_decode_dec : decode 0b00000000000000000000000000000100#32 = .command .dec := by decide
theorem test_decode_wipe : decode 0b00000000000000000000000000000101#32 = .command .wipe := by decide
theorem test_decode_unknown_op : decode 0x00000000 = .illegal .unknownOp ∧ decode 0x00000006 = .illegal .unknownOp ∧
    decode 0x000000fe = .illegal .unknownOp ∧ decode 0xffffffff = .illegal .unknownOp := by decide
theorem test_decode_key_high_bits : decode 0x00010001 = .illegal .keyCommandHighBits ∧
    decode 0x80001002 = .illegal .keyCommandHighBits := by decide
theorem test_decode_plain_high_bits : decode 0x00000103 = .illegal .plainCommandHighBits ∧
    decode 0x80000004 = .illegal .plainCommandHighBits ∧ decode 0x00002005 = .illegal .plainCommandHighBits := by decide
theorem test_decodeTableWord : decodeTableWord 32 0x00002001 = some (.kexpE 32) ∧ decodeTableWord 32 0x00010003 = none ∧
    decodeTableWord 8 0x05 = some .wipe := by decide
theorem test_withFetchWord : step (State.reset.withFetchWord 32 0x00000005) = exec .wipe State.reset := by rfl

/-! ### One step of each command: expected values from 95_test_vectors.md, named in each comment -/

/-- V-KE-B, round keys 1 (second half) and 2: a 24-byte key. -/
theorem test_kexpE_24 : ((reached (exec (.kexpE 24) { State.reset with
    key := #v[0x8e73b0f7, 0xda0e6452, 0xc810f32b, 0x809079e5, 0x62f8ead2, 0x522c6b7b, 0xffffffff, 0xffffffff] })).map
      fun t => (t.rk[6], t.rk[51], t.rk[52], t.status)) = some (0xfe0c91f7, 0x01002202, 0, 0x000000c1) := by
  decide +kernel
/-- V-C-K28 and V-C-D2: an illegal length empties the slot and keeps the result. -/
theorem test_kexpE_28 : ((reached (exec (.kexpE 28) (zeroKeyState false))).map
    fun t => (t.rk == Vector.replicate 60 0, t.dout, t.status)) = some (true, plainBlock, 0x00010100) := by decide +kernel
/-- V-KD-N32, round keys 0, 1 and 14. -/
theorem test_kexpD_32 : ((reached (exec (.kexpD 32) { State.reset with key := countingKey })).map
    fun t => (t.rk[0], t.rk[4], t.rk[59], t.status)) = some (0x24fc79cc, 0x34f1d1ff, 0x0c0d0e0f, 0x000000e3) := by
  decide +kernel
/-- V-C-K17D. -/
theorem test_kexpD_17 : ((reached (exec (.kexpD 17) State.reset)).map fun t => t.status) = some 0x00010000 := by decide
/-- V-E-5: the all-zero block under the all-zero key. -/
theorem test_enc_zero : ((reached (exec .enc (zeroKeyState false))).map fun t => (t.dout, t.status)) =
    some (#v[0x66e94bd4, 0xef8a2c3b, 0x884cfa59, 0xca342b2e], 0x000001a1) := by decide +kernel
/-- V-C-N3: `ENC` with a decryption-order schedule fails, keeps the schedule and drops the earlier result. -/
theorem test_enc_wrong_order : ((reached (exec .enc (zeroKeyState true))).map
    fun t => (t.rk == (zeroKeyState true).rk, t.dout, t.status)) = some (true, #v[0, 0, 0, 0], 0x000200a3) := by
  decide +kernel
/-- V-D-19: the all-zero block under the all-zero key. -/
theorem test_dec_zero : ((reached (exec .dec (zeroKeyState true))).map fun t => (t.dout, t.status)) =
    some (#v[0x140f0f10, 0x11b5223d, 0x79587717, 0xffd9ec3a], 0x000001a3) := by decide +kernel
/-- V-C-N5. -/
theorem test_dec_wrong_order : ((reached (exec .dec (zeroKeyState false))).map fun t => (t.dout, t.status)) =
    some (#v[0, 0, 0, 0], 0x000200a1) := by decide +kernel
/-- V-C-W1, V-C-W3: everything but `ERR` is zeroed. -/
theorem test_wipe : reached (exec .wipe { zeroKeyState true with key := countingKey, din := plainBlock, err := 0b0010#4 }) =
    some { State.reset with err := 0b0010#4 } := by decide
/-- V-C-X00001000: an illegal command word. -/
theorem test_illegal_word : reached (step (waiting [.wr 0 0x00001000])) = some { State.reset with err := 0b0100#4 } := by
  decide
/-- V-C-AR4, V-C-AW16: a read of `KEY[0]` returns zero and latches; a write to `DOUT[0]` is dropped and latches. -/
theorem test_not_permitted : reached (step { waiting [.rd 4] with key := countingKey }) =
      some { State.reset with key := countingKey, err := 0b1000#4, returned := [0] } ∧
    reached (step (waiting [.wr 16 0x12345678])) = some { State.reset with err := 0b1000#4 } := by decide
/-- V-C-R1: `DIN` reads back. -/
theorem test_din_reads_back : (reached (step { waiting [.rd 15] with din := plainBlock })).map (fun t => t.returned) =
    some [0xccddeeff] := by decide
/-- 95_test_vectors.md section 2.1: the round transformations on the state `00 01 .. 0f`. -/
theorem test_round_transformations :
    let s : Block := #v[0, 1, 2, 3, 4, 5, 6, 7, 8, 9, 10, 11, 12, 13, 14, 15]
    wordsOf (shiftRows s) = #v[0x00050a0f, 0x04090e03, 0x080d0207, 0x0c01060b] ∧
    wordsOf (invShiftRows s) = #v[0x000d0a07, 0x04010e0b, 0x0805020f, 0x0c090603] ∧
    wordsOf (mixColumns s) = #v[0x02070005, 0x06030401, 0x0a0f080d, 0x0e0b0c09] ∧
    wordsOf (invMixColumns s) = #v[0x0a0f080d, 0x0e0b0c09, 0x02070005, 0x06030401] := by decide

/-- V-C-R1 as a script: the results of the three `RD` lines, each under its name. -/
theorem test_script_names : ((runScript [.rd 12 "a", .rd 15 "b", .rd 16 "c"] { State.reset with din := plainBlock }).map
    fun r => (r.valueOf "a", r.valueOf "b", r.valueOf "c", r.valueOf "d")) =
    some (some 0x00112233, some 0xccddeeff, some 0, none) := by decide +kernel
/-- V-E-5 as `encrypt_block X -> Y`: the block of `Y`. -/
theorem test_encrypt_block_output : (runPseudo (.encryptBlock (List.replicate 16 0) "Y") (zeroKeyState false)).map (fun r => r.2) =
    some (some [0x66, 0xe9, 0x4b, 0xd4, 0xef, 0x8a, 0x2c, 0x3b, 0x88, 0x4c, 0xfa, 0x59, 0xca, 0x34, 0x2b, 0x2e]) := by
  decide +kernel

/-! ### Witnesses: concrete states and operands that meet the hypotheses of the obligations together, per clause -/

/-- Any events can be the pending ones. -/
theorem witness_waiting (es : List Event) : (waiting es).pending = es := rfl
theorem witness_DecodeOfEncode : Instr.wellFormed (.kexpE 255) = true ∧ Instr.wellFormed (.kexpD 0) = true ∧
    Instr.wellFormed .enc = true ∧ Instr.wellFormed .dec = true ∧ Instr.wellFormed .wipe = true := by decide
theorem witness_EncodeOfDecode : decode 0x00001802 = .command (.kexpD 24) := by decide
/-- One word per arm, and for the last arm the words next to the others'. -/
theorem witness_CommandWriteDecodeArms :
    (waiting [.wr 0 0x0000ff01]).pending = [.wr 0 0x0000ff01] ∧
    ((0x0000ff01 : Word).toNat % 256 = 1 ∧ (0x0000ff01 : Word).toNat / 65536 = 0) ∧
    ((0x00000002 : Word).toNat % 256 = 2 ∧ (0x00000002 : Word).toNat / 65536 = 0) ∧
    ((0x00000003 : Word).toNat % 256 = 3 ∧ (0x00000003 : Word).toNat / 256 = 0) ∧
    ((0x00000004 : Word).toNat % 256 = 4 ∧ (0x00000004 : Word).toNat / 256 = 0) ∧
    ((0x00000005 : Word).toNat % 256 = 5 ∧ (0x00000005 : Word).toNat / 256 = 0) ∧
    ¬ ((0x00010001 : Word).toNat / 65536 = 0) ∧ ¬ ((0x00000103 : Word).toNat / 256 = 0) := by decide
theorem witness_IllegalWordsOnlyLatch : (waiting [.wr 0 0x00000006]).pending = [.wr 0 0x00000006] ∧
    decode 0x00000006 = .illegal .unknownOp ∧ decode 0x00010002 = .illegal .keyCommandHighBits ∧
    decode 0x00000104 = .illegal .plainCommandHighBits := by decide
theorem witness_StepRunsDecodedCommand : (waiting [.wr 0 0x00002001, .rd 1]).pending = [.wr 0 0x00002001, .rd 1] ∧
    decode 0x00002001 = .command (.kexpE 32) ∧ Instr.wellFormed (.kexpE 32) = true := by decide
theorem witness_ScriptLinesAreTransactions : (63 : Nat) < 64 ∧ (4294967295 : Nat) < 2 ^ 32 ∧ (255 : Nat) < 256 := by decide
theorem witness_PseudoInstructionExpansion : (List.replicate 32 (0 : Byte)).length = 4 * 8 ∧
    (List.replicate 16 (0 : Byte)).length = 4 * 4 ∧
    ((List.replicate 17 (0 : Byte)).length ≠ 16 ∧ (List.replicate 17 (0 : Byte)).length ≠ 24 ∧
      (List.replicate 17 (0 : Byte)).length ≠ 32) ∧ (List.replicate 16 (0 : Byte)).length = 16 := by decide
theorem witness_ResetLeavesZero : ({ zeroKeyState true with pending := [.reset, .rd 1] } : State).pending = [.reset, .rd 1] ∧
    ({ zeroKeyState true with pending := [.reset, .rd 1] } : State).err = 0 ∧
    ∃ t, step { zeroKeyState true with pending := [.reset, .rd 1] } = .next t := ⟨rfl, rfl, _, rfl⟩
theorem witness_ResetAsTheHostSeesIt : (1#6).toNat = 1 ∧ (12 ≤ (12#6).toNat ∧ (12#6).toNat ≤ 19) ∧
    (12 ≤ (19#6).toNat ∧ (19#6).toNat ≤ 19) := by decide
/-- The first and the last slot of each clause. -/
theorem witness_WriteTransactionEffect : (waiting [.wr 0 0x00000003]).pending = [.wr 0 0x00000003] ∧ (0#6).toNat = 0 ∧
    (4#6).toNat = 4 + (0 : Fin 8).val ∧ (11#6).toNat = 4 + (7 : Fin 8).val ∧
    (12#6).toNat = 12 + (0 : Fin 4).val ∧ (15#6).toNat = 12 + (3 : Fin 4).val ∧
    ((1#6).toNat ≠ 0 ∧ ¬ (4 ≤ (1#6).toNat ∧ (1#6).toNat ≤ 15)) ∧
    ((3#6).toNat ≠ 0 ∧ ¬ (4 ≤ (3#6).toNat ∧ (3#6).toNat ≤ 15)) ∧
    ((16#6).toNat ≠ 0 ∧ ¬ (4 ≤ (16#6).toNat ∧ (16#6).toNat ≤ 15)) ∧
    ((63#6).toNat ≠ 0 ∧ ¬ (4 ≤ (63#6).toNat ∧ (63#6).toNat ≤ 15)) := by decide
theorem witness_WriteTransactionEffect_next : ∃ t, step (waiting [.wr 11 0xffffffff]) = .next t := ⟨_, rfl⟩
theorem witness_ReadTransactionEffect : (waiting [.rd 16]).pending = [.rd 16] ∧ (1#6).toNat = 1 ∧
    (12#6).toNat = 12 + (0 : Fin 4).val ∧ (15#6).toNat = 12 + (3 : Fin 4).val ∧
    (16#6).toNat = 16 + (0 : Fin 4).val ∧ (19#6).toNat = 16 + (3 : Fin 4).val ∧
    ((0#6).toNat ≠ 1 ∧ ¬ (12 ≤ (0#6).toNat ∧ (0#6).toNat ≤ 19)) ∧
    ((11#6).toNat ≠ 1 ∧ ¬ (12 ≤ (11#6).toNat ∧ (11#6).toNat ≤ 19)) ∧
    ((20#6).toNat ≠ 1 ∧ ¬ (12 ≤ (20#6).toNat ∧ (20#6).toNat ≤ 19)) ∧
    ((63#6).toNat ≠ 1 ∧ ¬ (12 ≤ (63#6).toNat ∧ (63#6).toNat ≤ 19)) := by decide
/-- The last clause: a state with no result, and the slots 16 and 19. -/
theorem witness_ReadTransactionEffect_noResult : (waiting [.rd 16]).noResultZero ∧ (waiting [.rd 16]).dvalid = false ∧
    16 ≤ (16#6).toNat ∧ (16#6).toNat ≤ 19 ∧ 16 ≤ (19#6).toNat ∧ (19#6).toNat ≤ 19 :=
  ⟨fun _ => rfl, by decide⟩
theorem witness_NonPermittedAccessOnlyLatches : (waiting [.wr 63 0]).pending = [.wr 63 0] ∧
    (waiting [.rd 63]).pending = [.rd 63] ∧ (1#6).toNat = 1 ∧ (2#6).toNat = 2 ∧ (3#6).toNat = 3 ∧
    (16 ≤ (16#6).toNat ∧ (16#6).toNat ≤ 63) ∧ (16 ≤ (63#6).toNat ∧ (63#6).toNat ≤ 63) ∧ (0#6).toNat = 0 ∧
    (4 ≤ (4#6).toNat ∧ (4#6).toNat ≤ 11) ∧ (4 ≤ (11#6).toNat ∧ (11#6).toNat ≤ 11) ∧
    (20 ≤ (20#6).toNat ∧ (20#6).toNat ≤ 63) ∧ (20 ≤ (63#6).toNat ∧ (63#6).toNat ≤ 63) := by decide
theorem witness_StatusFields : (waiting [.rd 1]).pending = [.rd 1] ∧
    (waiting [.wr 1 0xffffffff]).pending = [.wr 1 0xffffffff] := by decide
theorem witness_BytePackingOfRegisters : (31 : Nat) < 32 ∧ (32 : Nat) ≤ 32 ∧ (0 : Nat) < 16 ∧ (15 : Nat) < 16 := by decide
theorem witness_EventsTakenInIssueOrder : (waiting [.wr 0 0x00001001, .reset]).pending = .wr 0 0x00001001 :: [.reset] ∧
    ∃ t, step (waiting [.wr 0 0x00001001, .reset]) = .next t := ⟨rfl, _, rfl⟩
theorem witness_OperandWritesCommute : (4#6 ≠ 15#6 ∧ 4 ≤ (4#6).toNat ∧ (4#6).toNat ≤ 15 ∧ 4 ≤ (15#6).toNat ∧
      (15#6).toNat ≤ 15) ∧ (11#6 ≠ 12#6 ∧ 4 ≤ (11#6).toNat ∧ (11#6).toNat ≤ 15 ∧ 4 ≤ (12#6).toNat ∧ (12#6).toNat ≤ 15) := by
  decide
/-- Both branches of the key commands: the three legal lengths, and illegal ones at the ends and beside them. -/
theorem witness_KeyExpandEncryptResult : ((16#8 = 16 ∨ 16#8 = 24 ∨ 16#8 = 32) ∧ (24#8 = 16 ∨ 24#8 = 24 ∨ 24#8 = 32) ∧
      (32#8 = 16 ∨ 32#8 = 24 ∨ 32#8 = 32)) ∧ ¬ (0#8 = 16 ∨ 0#8 = 24 ∨ 0#8 = 32) ∧ ¬ (17#8 = 16 ∨ 17#8 = 24 ∨ 17#8 = 32) ∧
    ¬ (255#8 = 16 ∨ 255#8 = 24 ∨ 255#8 = 32) := by decide
theorem witness_KeyExpandDecryptResult : (24#8 = 16 ∨ 24#8 = 24 ∨ 24#8 = 32) ∧ ¬ (33#8 = 16 ∨ 33#8 = 24 ∨ 33#8 = 32) := by
  decide
theorem witness_KeyCommandBadLength : ((Instr.kexpE 15 = .kexpE 15 ∨ Instr.kexpE 15 = .kexpD 15) ∧ 15#8 ≠ 16 ∧ 15#8 ≠ 24 ∧
      15#8 ≠ 32) ∧ ((Instr.kexpD 255 = .kexpE 255 ∨ Instr.kexpD 255 = .kexpD 255) ∧ 255#8 ≠ 16 ∧ 255#8 ≠ 24 ∧ 255#8 ≠ 32) ∧
    (16#8 = 16 ∨ 16#8 = 24 ∨ 16#8 = 32) := by decide
/-- Two states that differ in `KEY[4]` alone, and a 16-byte key command in each. -/
theorem witness_ScheduleDependsOnKeyBytesOnly : (Instr.kexpE 16 = .kexpE 16 ∨ Instr.kexpE 16 = .kexpD 16) ∧
    (∀ (j : Nat) (h : j < 8), j < (16#8).toNat / 4 →
      ({ State.reset with key := countingKey } : State).key[j] =
        ({ State.reset with key := countingKey.set 4 0 } : State).key[j]) ∧
    (∃ a, exec (.kexpE 16) { State.reset with key := countingKey } = .next a) ∧
    ∃ b, exec (.kexpE 16) { State.reset with key := countingKey.set 4 0 } = .next b :=
  ⟨.inl rfl, by decide, ⟨_, rfl⟩, _, rfl⟩
theorem witness_EncryptBlockResult : ((zeroKeyState false).kvalid = true ∧ (zeroKeyState false).kdir = false) ∧
    ¬ ((zeroKeyState true).kvalid = true ∧ (zeroKeyState true).kdir = false) ∧
    ¬ (State.reset.kvalid = true ∧ State.reset.kdir = false) := by decide
theorem witness_DecryptBlockResult : ((zeroKeyState true).kvalid = true ∧ (zeroKeyState true).kdir = true) ∧
    ¬ ((zeroKeyState false).kvalid = true ∧ (zeroKeyState false).kdir = true) ∧
    ¬ (State.reset.kvalid = true ∧ State.reset.kdir = true) := by decide
theorem witness_BlockCommandWithoutSchedule : (State.reset.kvalid = false ∨ State.reset.kdir = true) ∧
    ((zeroKeyState true).kvalid = false ∨ (zeroKeyState true).kdir = true) ∧
    ((zeroKeyState false).kvalid = false ∨ (zeroKeyState false).kdir = false) := by decide
theorem witness_BlockCommandsIgnoreRawKey : (Instr.dec = .enc ∨ Instr.dec = .dec) ∧
    ∃ t, exec .dec (zeroKeyState true) = .next t := ⟨.inr rfl, _, rfl⟩
theorem witness_WipeResult : (zeroKeyState true).err = 0 := by decide
theorem witness_WipeCornerCases : (zeroKeyState true).err = 0 ∧ (∃ t, exec .wipe (zeroKeyState true) = .next t) ∧
    (32#8 = 16 ∨ 32#8 = 24 ∨ 32#8 = 32) ∧ Instr.enc ≠ .wipe ∧ ∃ t, exec .enc (zeroKeyState true) = .next t :=
  ⟨rfl, ⟨_, rfl⟩, by decide, by decide, _, rfl⟩
/-- One command of each kind. -/
theorem witness_CommandFrames : (∃ t, exec (.kexpE 16) (zeroKeyState true) = .next t) ∧
    (∃ t, exec (.kexpD 0) (zeroKeyState true) = .next t) ∧ (∃ t, exec .enc (zeroKeyState true) = .next t) ∧
    (∃ t, exec .dec (zeroKeyState true) = .next t) ∧ ∃ t, exec .wipe (zeroKeyState true) = .next t :=
  ⟨⟨_, rfl⟩, ⟨_, rfl⟩, ⟨_, rfl⟩, ⟨_, rfl⟩, _, rfl⟩
theorem witness_CommandTwiceIsOnce : ∃ t, exec (.kexpD 32) (zeroKeyState false) = .next t := ⟨_, rfl⟩
theorem witness_RegisterRoundTrips : 24#8 = 16 ∨ 24#8 = 24 ∨ 24#8 = 32 := by decide
/-- An event that is no reset, for each of the four causes. -/
theorem witness_ErrorCausesExact : (∀ rest, (waiting [.wr 0 0x00001101]).pending ≠ .reset :: rest) ∧
    (∃ t, step (waiting [.wr 0 0x00001101]) = .next t) ∧ (∃ t, step (waiting [.wr 0 0x00000003]) = .next t) ∧
    (∃ t, step (waiting [.wr 0 0x00000000]) = .next t) ∧ (∃ t, step (waiting [.rd 63]) = .next t) :=
  ⟨by simp [waiting], ⟨_, rfl⟩, ⟨_, rfl⟩, ⟨_, rfl⟩, _, rfl⟩
theorem witness_AtMostOneCausePerEvent : (∀ rest, (waiting [.wr 20 0]).pending ≠ .reset :: rest) ∧
    ∃ t, step (waiting [.wr 20 0]) = .next t := ⟨by simp [waiting], _, rfl⟩
theorem witness_ErrorBitsSticky : (∀ rest, ({ waiting [.wr 0 5] with err := 0b1111#4 } : State).pending ≠ .reset :: rest) ∧
    (∃ t, step { waiting [.wr 0 5] with err := 0b1111#4 } = .next t) ∧
    ({ waiting [.wr 0 5] with err := 0b1111#4 } : State).err.getLsbD 3 = true ∧ (waiting [.reset]).pending = [.reset] ∧
    (waiting [.wr 1 0]).pending = [.wr 1 0] ∧ ∃ t, exec .enc { State.reset with err := 0b0001#4 } = .next t :=
  ⟨by simp [waiting], ⟨_, rfl⟩, by decide, rfl, rfl, _, rfl⟩
/-- The last clause: a run of two events without a reset among them that ends with no error. -/
theorem witness_ErrorBitsSticky_run : Event.reset ∉ (waiting [.wr 4 1, .wr 0 0x00001001, .reset]).pending.take 2 ∧
    ∃ t : State, core.run 2 (waiting [.wr 4 1, .wr 0 0x00001001, .reset]) = .next t ∧ t.clean :=
  ⟨by decide, _, rfl, rfl⟩
theorem witness_LatchedErrorsBlockNothing : (∃ t, exec .dec (zeroKeyState true) = .next t) ∧
    (waiting [.rd 12]).pending.head? ≠ some .reset ∧ (waiting [.rd 12]).pending.head? ≠ some (.rd 1) ∧
    (∃ t, step (waiting [.rd 12]) = .next t) ∧ (waiting [.rd 1]).pending = [.rd 1] ∧
    ∃ t, step (waiting [.rd 1]) = .next t := ⟨⟨_, rfl⟩, by decide, by decide, ⟨_, rfl⟩, rfl, _, rfl⟩
/-- A state with a schedule and a result that has the invariants, in each order. -/
theorem witness_Inv_of_zeroKeyState (order : Bool) : (zeroKeyState order).Inv where
  emptySlotZero := fun h => absurd h (by cases order <;> decide)
  scheduleShaped := fun _ => ⟨.inl rfl, by cases order <;> decide +kernel⟩
  scheduleDerived := fun _ => ⟨List.replicate 16 0, rfl, by cases order <;> rfl⟩
  noResultZero := fun h => absurd h (by cases order <;> decide)
theorem witness_StepKeepsInvariants : ∃ s : State, s.Inv ∧ (∃ t, step s = .next t) ∧
    (∀ rest, s.pending ≠ .reset :: rest) ∧ s.err.getLsbD 1 = true ∧ s.kvalid = true ∧ s.dvalid = true :=
  have h := witness_Inv_of_zeroKeyState true
  ⟨{ zeroKeyState true with pending := [.wr 0 0x00000004], err := 0b0010#4 },
    ⟨h.emptySlotZero, h.scheduleShaped, h.scheduleDerived, h.noResultZero⟩, ⟨_, rfl⟩, by simp, by decide, rfl, rfl⟩
theorem witness_StatusOfInvariantStates : (zeroKeyState false).Inv := witness_Inv_of_zeroKeyState false
/-- A step that changes the tags; a block command; a write to an operand register. -/
theorem witness_ScheduleImmutableInUse : (∃ t, step (waiting [.wr 0 0x00001001]) = .next t ∧
      ¬ (t.rk = State.reset.rk ∧ t.kvalid = State.reset.kvalid ∧ t.kdir = State.reset.kdir ∧ t.nr = State.reset.nr)) ∧
    (∃ t, exec .enc (zeroKeyState false) = .next t) ∧ (waiting [.wr 4 1]).pending = [.wr 4 1] ∧ (4#6 ≠ 0) ∧
    ∃ t, step (waiting [.wr 4 1]) = .next t :=
  ⟨⟨_, rfl, fun h => absurd h.2.1 (by decide)⟩, ⟨_, rfl⟩, rfl, by decide, _, rfl⟩
/-- A step of each kind that the four clauses speak of. -/
theorem witness_EventFrames : (∃ t, step (waiting [.wr 4 1]) = .next t ∧ t.key ≠ State.reset.key) ∧
    (∃ t, step (waiting [.wr 15 1]) = .next t ∧ t.din ≠ State.reset.din) ∧
    (∃ t, step { waiting [.wr 0 3] with dvalid := true } = .next t ∧ t.dvalid ≠ true) ∧
    (∃ t, step (waiting [.rd 16]) = .next t ∧ t.returned ≠ []) ∧
    (∀ rest, (waiting [.wr 4 1]).pending ≠ .reset :: rest) ∧
    (∀ v rest, (waiting [.wr 4 1]).pending = .wr 0 v :: rest → decode v ≠ .command .wipe) ∧
    (∀ rest, (waiting [.wr 0 3]).pending ≠ .reset :: rest) ∧
    (∀ v rest, (waiting [.wr 0 3]).pending = .wr 0 v :: rest → decode v ≠ .command .wipe) :=
  ⟨⟨_, rfl, by decide⟩, ⟨_, rfl, by decide⟩, ⟨_, rfl, by decide⟩, ⟨_, rfl, by decide⟩, by simp [waiting],
    by simp [waiting], by simp [waiting], by simp +decide [waiting]⟩
theorem witness_KeyMaterialUnreadable : (∀ v rest, (waiting [.rd 4]).pending = .wr 0 v :: rest →
      decode v ≠ .command .enc ∧ decode v ≠ .command .dec) ∧ ∃ t, step (waiting [.rd 4]) = .next t :=
  ⟨by simp [waiting], _, rfl⟩
theorem witness_FieldInverse : (0x02 : Byte) ≠ 0 ∧ gmul 0x02 0x8d = 0x01 := by decide
theorem witness_SboxIsAlgebraic : (7 : Nat) < 8 := by decide
theorem witness_SubstitutionAndRowShifts : (15 : Nat) < 16 ∧ (3 : Nat) < 4 := by decide
theorem witness_ColumnMixing : (3 : Nat) < 4 := by decide
theorem witness_RoundKeyAddition : (14 : Nat) < 15 ∧ (3 : Nat) < 4 := by decide
theorem witness_KeyExpansionWordFunctions : (3 : Nat) < 4 ∧ (1 : Nat) ≤ 1 ∧ 9 % 8 ≠ 0 ∧ 8 % 8 = 0 ∧
    ((8 = 4 ∨ 8 = 6 ∨ 8 = 8) ∧ 8 ≤ 56 ∧ 56 ≤ 4 * (8 + 6 + 1) - 1 ∧ 56 % 8 = 0) ∧
    ((4 = 4 ∨ 4 = 6 ∨ 4 = 8) ∧ 4 ≤ 40 ∧ 40 ≤ 4 * (4 + 6 + 1) - 1 ∧ 40 % 4 = 0) := by decide
/-- The first and the last word of each clause, for the shortest and the longest key. -/
theorem witness_EncryptionScheduleRecurrence : ((4 = 4 ∨ 4 = 6 ∨ 4 = 8) ∧ (List.replicate 16 (0 : Byte)).length = 4 * 4) ∧
    ((8 = 4 ∨ 8 = 6 ∨ 8 = 8) ∧ (List.replicate 32 (0 : Byte)).length = 4 * 8) ∧ (3 < 60 ∧ 3 < 4) ∧
    (4 < 60 ∧ 4 ≤ 4 ∧ 4 ≤ 4 * (4 + 6 + 1) - 1) ∧ (43 < 60 ∧ 4 ≤ 43 ∧ 43 ≤ 4 * (4 + 6 + 1) - 1) ∧
    (44 < 60 ∧ 4 * (4 + 6 + 1) ≤ 44) ∧ (59 < 60 ∧ 8 ≤ 59 ∧ 59 ≤ 4 * (8 + 6 + 1) - 1) := by decide
theorem witness_DecryptionScheduleReversed : ((6 = 4 ∨ 6 = 6 ∨ 6 = 8) ∧ (List.replicate 24 (0 : Byte)).length = 4 * 6) ∧
    (0 < 15 ∧ 3 < 4 ∧ 0 ≤ 6 + 6) ∧ (12 < 15 ∧ 0 < 4 ∧ 12 ≤ 6 + 6) ∧ (51 < 60 ∧ 51 ≤ 4 * (6 + 6) + 3) ∧
    (52 < 60 ∧ 4 * (6 + 6 + 1) ≤ 52) := by decide
theorem witness_AesLaws : ((8 = 4 ∨ 8 = 6 ∨ 8 = 8) ∧ (List.replicate 32 (0 : Byte)).length = 4 * 8) ∧ 14 < 15 ∧ 3 < 4 := by
  decide
theorem witness_ReadResultsBoundToNames : (∀ l ∈ [Line.wr 63 4294967295, .rd 63 "x", .kexpE 255, .enc], l.wellFormed = true) ∧
    (∃ l ∈ [Line.enc, .rd 64 "x"], l.wellFormed = false) ∧ ((0 : Nat) < 64 ∧ (0 : Nat) ≠ 1 ∧ ¬ (12 ≤ 0 ∧ 0 ≤ 19)) ∧
    ((11 : Nat) < 64 ∧ (11 : Nat) ≠ 1 ∧ ¬ (12 ≤ 11 ∧ 11 ≤ 19)) ∧ ((20 : Nat) < 64 ∧ (20 : Nat) ≠ 1 ∧ ¬ (12 ≤ 20 ∧ 20 ≤ 19)) ∧
    ((63 : Nat) < 64 ∧ (63 : Nat) ≠ 1 ∧ ¬ (12 ≤ 63 ∧ 63 ≤ 19)) := by decide
theorem witness_PseudoInstructionOutputs : (List.replicate 16 (0 : Byte)).length = 16 ∧
    ((zeroKeyState false).kvalid = true ∧ (zeroKeyState false).kdir = false) ∧
    ¬ ((zeroKeyState true).kvalid = true ∧ (zeroKeyState true).kdir = false) ∧
    ((zeroKeyState true).kvalid = true ∧ (zeroKeyState true).kdir = true) ∧
    ¬ (State.reset.kvalid = true ∧ State.reset.kdir = true) ∧ (List.replicate 17 (0 : Byte)).length < 256 := by decide
theorem witness_PseudoInstructionOutputs_longest : (List.replicate 255 (0 : Byte)).length < 256 := by
  rw [List.length_replicate]
  omega

end Sys2Proof.Tests
end

section
/-! SUPPORT. Proofs of the statements on the state as a whole (10_state.md R34, R36): reset and `WIPE` leave zeros, and the
schedule slot is kept, replaced as a whole, or emptied. -/

namespace Sys2Proof.Machine

/-! ### Reset (R34) -/

/-- R27: with both tags of the slot, `DVALID`, `NR` and `ERR` zero, `STATUS` reads 0. -/
theorem State.status_eq_zero {s : State} (hkv : s.kvalid = false) (hkd : s.kdir = false) (hnr : s.nr = 0)
    (hdv : s.dvalid = false) (herr : s.err = 0) : s.status = 0 := by
  simp [State.status, hkv, hkd, hnr, hdv, herr]

/-- R34, R120: with no error latched, `WIPE` does what a reset does. -/
theorem exec_wipe_eq_resetCore {s : State} (herr : s.err = 0) : exec .wipe s = .next s.resetCore := by
  have hstate : s.clearOperands.clearResult.clearSchedule = s.resetCore := by
    apply State.ext_fields <;> simp [herr]
  exact congrArg Host.Outcome.next hstate

/-- Settles O10: reset sets every field by definition, and `WIPE` sets every field but `ERR`. -/
theorem resetLeavesZero : Obligations.ResetLeavesZero := by
  refine ⟨fun s rest hp => ?_, rfl, rfl, rfl, rfl, rfl, rfl, rfl, rfl, rfl, State.status_eq_zero rfl rfl rfl rfl rfl,
    fun s t rest hp herr hstep => ?_⟩
  · exact ⟨(s.setPending rest).resetCore, step_reset hp, rfl, rfl, rfl, rfl, rfl, rfl, rfl, rfl, rfl,
      State.status_eq_zero rfl rfl rfl rfl rfl⟩
  · have hwipe : exec .wipe (s.setPending rest) = .next (s.setPending rest).resetCore := exec_wipe_eq_resetCore herr
    exact hwipe.trans ((step_reset hp).symm.trans hstep)

/-! ### The schedule slot (R36) -/

/-- R36: `t` holds the schedule of `s`, tags included. -/
def State.keepsSlot (s t : State) : Prop :=
  t.rk = s.rk ∧ t.kvalid = s.kvalid ∧ t.kdir = s.kdir ∧ t.nr = s.nr

/-- R102, R120, R145: the slot is empty and zero. -/
def State.slotEmptied (t : State) : Prop :=
  t.rk = Vector.replicate 60 0 ∧ t.kvalid = false ∧ t.kdir = false ∧ t.nr = 0

/-- R100, R101: `i` is a key command with a legal `klen`, and `t` holds the whole expansion of the key of `s`. -/
def State.slotReplaced (i : Instr) (s t : State) : Prop :=
  ∃ klen, (i = .kexpE klen ∨ i = .kexpD klen) ∧ (klen = 16 ∨ klen = 24 ∨ klen = 32) ∧
    t.rk = (if i = .kexpE klen then expandEnc else expandDec) (keyBytes s.key klen.toNat) (klen.toNat / 4) ∧
    t.kvalid = true ∧ t.kdir = decide (i = .kexpD klen) ∧ t.nr = BitVec.ofNat 4 (klen.toNat / 4 + 6)

/-- R102, R120: the commands that empty the slot, the failing key commands and `WIPE`. -/
def emptiesSlot (i : Instr) : Prop :=
  (∃ klen, (i = .kexpE klen ∨ i = .kexpD klen) ∧ ¬ (klen = 16 ∨ klen = 24 ∨ klen = 32)) ∨ i = .wipe

/-- R100 to R102: a key command replaces the whole slot or empties it, by `klen` alone. -/
theorem keyCommand_slot_cases (expand : List Byte → Nat → Schedule) (order : Bool) (klen : BitVec 8) (s : State) :
    ((klen = 16 ∨ klen = 24 ∨ klen = 32) ∧
      (keyCommand expand order klen s).rk = expand (keyBytes s.key klen.toNat) (klen.toNat / 4) ∧
      (keyCommand expand order klen s).kvalid = true ∧ (keyCommand expand order klen s).kdir = order ∧
      (keyCommand expand order klen s).nr = BitVec.ofNat 4 (klen.toNat / 4 + 6)) ∨
    (¬ (klen = 16 ∨ klen = 24 ∨ klen = 32) ∧ (keyCommand expand order klen s).slotEmptied) := by
  rw [← legalKeyLength_iff]
  rcases keyCommand_cases expand order klen s with ⟨hlegal, e⟩ | ⟨hillegal, e⟩ <;> rw [e]
  · exact .inl ⟨hlegal, rfl, rfl, rfl, rfl⟩
  · exact .inr ⟨by simp [hillegal], rfl, rfl, rfl, rfl⟩

theorem blockCommand_keepsSlot (run : Block → Schedule → Nat → Block) (order : Bool) (s : State) :
    s.keepsSlot (blockCommand run order s) := by
  rcases blockCommand_cases run order s with ⟨-, e⟩ | ⟨-, e⟩ <;> rw [e] <;> exact ⟨rfl, rfl, rfl, rfl⟩

theorem readSlot_keepsSlot (i : BitVec 6) (s : State) : s.keepsSlot (readSlot i s) := by
  rcases readSlot_cases i s with ⟨-, e⟩ | ⟨j, -, e⟩ | ⟨j, -, e⟩ | ⟨-, -, e⟩ <;> rw [e] <;> exact ⟨rfl, rfl, rfl, rfl⟩

/-- R36: `ENC` and `DEC` never write the slot. -/
theorem exec_block_keepsSlot {i : Instr} {s t : State} (hi : i = .enc ∨ i = .dec) (h : exec i s = .next t) :
    s.keepsSlot t := by
  rcases hi with rfl | rfl <;> cases h
  · exact blockCommand_keepsSlot cipher false s
  · exact blockCommand_keepsSlot eqInvCipher true s

/-- R36: what a command can do to the slot. -/
theorem exec_slot_cases {i : Instr} {s t : State} (h : exec i s = .next t) :
    s.keepsSlot t ∨ s.slotReplaced i t ∨ (emptiesSlot i ∧ t.slotEmptied) := by
  rcases exec_cases h with ⟨klen, rfl, rfl⟩ | ⟨klen, rfl, rfl⟩ | ⟨hi, -⟩ | ⟨hi, -⟩ | ⟨rfl, rfl⟩
  · rcases keyCommand_slot_cases expandEnc false klen s with ⟨hlegal, hslot⟩ | ⟨hillegal, hempty⟩
    · exact .inr (.inl ⟨klen, .inl rfl, hlegal, by simpa using hslot⟩)
    · exact .inr (.inr ⟨.inl ⟨klen, .inl rfl, hillegal⟩, hempty⟩)
  · rcases keyCommand_slot_cases expandDec true klen s with ⟨hlegal, hslot⟩ | ⟨hillegal, hempty⟩
    · exact .inr (.inl ⟨klen, .inr rfl, hlegal, by simpa using hslot⟩)
    · exact .inr (.inr ⟨.inl ⟨klen, .inr rfl, hillegal⟩, hempty⟩)
  · exact .inl (exec_block_keepsSlot (.inl hi) h)
  · exact .inl (exec_block_keepsSlot (.inr hi) h)
  · exact .inr (.inr ⟨.inr rfl, rfl, rfl, rfl, rfl⟩)

/-- R36: what a step can do to the slot. -/
theorem step_slot_cases {s t : State} (h : step s = .next t) :
    s.keepsSlot t ∨ ((∃ rest, s.pending = .reset :: rest) ∧ t.slotEmptied) ∨
    (∃ v rest i, s.pending = .wr 0 v :: rest ∧ decode v = .command i ∧
      (s.slotReplaced i t ∨ (emptiesSlot i ∧ t.slotEmptied))) := by
  rcases step_cases h with ⟨-, rfl⟩ | ⟨rest, hp, rfl⟩ | ⟨i, rest, -, rfl⟩ | ⟨i, v, rest, hp, hwrite⟩
  · exact .inl ⟨rfl, rfl, rfl, rfl⟩
  · exact .inr (.inl ⟨⟨rest, hp⟩, rfl, rfl, rfl, rfl⟩)
  · exact .inl (readSlot_keepsSlot i (s.setPending rest))
  · rcases hwrite with ⟨hi, c, hd, hexec⟩ | ⟨-, r, -, rfl⟩ | ⟨j, -, rfl⟩ | ⟨j, -, rfl⟩ | ⟨-, -, rfl⟩
    · obtain rfl : i = 0 := BitVec.eq_of_toNat_eq hi
      exact (exec_slot_cases hexec).imp_right fun hslot => .inr ⟨v, rest, c, hp, hd, hslot⟩
    all_goals exact .inl ⟨rfl, rfl, rfl, rfl⟩

/-- R36: a `WR` to any slot but `CMD` leaves the schedule. -/
theorem step_write_keepsSlot {s t : State} {i : BitVec 6} {v : Word} {rest : List Event}
    (hp : s.pending = .wr i v :: rest) (hi : i ≠ 0) (h : step s = .next t) : s.keepsSlot t := by
  rcases step_slot_cases h with hkeep | ⟨⟨rest', hreset⟩, -⟩ | ⟨v', rest', c, hcmd, -⟩
  · exact hkeep
  · cases hp.symm.trans hreset
  · cases hp.symm.trans hcmd
    exact absurd rfl hi

/-- Settles O41: by what a step and a command can do to the slot. -/
theorem scheduleImmutableInUse : Obligations.ScheduleImmutableInUse := by
  refine ⟨fun s t h hchange => ?_, fun i s t hi h => exec_block_keepsSlot hi h,
    fun s t i v rest hp hi h => step_write_keepsSlot hp hi h⟩
  exact (step_slot_cases h).resolve_left hchange

end Sys2Proof.Machine
end

section
/-! SUPPORT. Proofs of the statements on the register window (20_memory.md R43 to R47): where each byte lies in the register
files, and the effect of `WR` and `RD` by the word index. -/

namespace Sys2Proof.Machine

/-! ### The packing of the register files (R43) -/

/-- R19, R43: byte `k` of the key string is byte `k mod 4` of `KEY[k div 4]`. -/
theorem keyBytes_getElem? (key : Vector Word 8) {n k : Nat} (h : k < 32) (hkn : k < n) :
    (keyBytes key n)[k]? = some (byteOf (key[k / 4]) (k % 4)) := by
  have hword : key.toList[k / 4]? = some key[k / 4] := by simp [show k / 4 < 8 by omega]
  rw [keyBytes, fileBytes, List.getElem?_take_of_lt hkn, flatMap_wordBytes_getElem?, hword, Option.map_some]

/-- R19, R43: byte `k mod 4` of word `k div 4` of a packed block is byte `k` of the block. -/
theorem byteOf_wordsOf (b : Block) {k : Nat} (h : k < 16) : byteOf ((wordsOf b)[k / 4]) (k % 4) = b[k] := by
  rw [← blockOf_getElem (wordsOf b) k h, getElem_congr_coll (blockOf_wordsOf b)]

/-- Settles O16: `byteOf` is the bit range the statement writes out, and packing and unpacking a block are inverse. -/
theorem bytePackingOfRegisters : Obligations.BytePackingOfRegisters := by
  refine ⟨fun key n k h _ hkn => keyBytes_getElem? key h hkn, fun din k h => blockOf_getElem din k h,
    fun b k h => byteOf_wordsOf b h, ?_⟩
  decide

/-! ### The write side of the window (R45, R47) -/

/-- Settles O12: one rule of `step` for each target of a write. -/
theorem writeTransactionEffect : Obligations.WriteTransactionEffect := by
  intro s i v rest hp
  refine ⟨fun hi => ?_, fun j hj => step_write_key hp j hj, fun j hj => step_write_din hp j hj,
    fun h0 h1 => step_write_notPermitted hp h0 (by omega), fun t h => step_write_returned hp h⟩
  cases hd : decode v with
  | command c => exact step_command hp hi hd
  | illegal r => exact step_illegal hp hi hd

/-! ### The read side of the window (R46, R47) -/

/-- R46: `RD` of `STATUS`. -/
theorem step_read_status {s : State} {i : BitVec 6} {rest : List Event} (hp : s.pending = .rd i :: rest)
    (hi : i.toNat = 1) : step s = .next ((s.setPending rest).giveBack s.status) := by
  rw [step_read hp, readSlot, readEffect, readValue, readTarget_status hi]
  rfl

/-- R46: `RD` of `DIN[j]`. -/
theorem step_read_din {s : State} {i : BitVec 6} {rest : List Event} (hp : s.pending = .rd i :: rest)
    (j : Fin 4) (hj : i.toNat = 12 + j.val) : step s = .next ((s.setPending rest).giveBack s.din[j]) := by
  rw [step_read hp, readSlot, readEffect, readValue, readTarget_din j hj]
  rfl

/-- R46: `RD` of `DOUT[j]`. -/
theorem step_read_dout {s : State} {i : BitVec 6} {rest : List Event} (hp : s.pending = .rd i :: rest)
    (j : Fin 4) (hj : i.toNat = 16 + j.val) : step s = .next ((s.setPending rest).giveBack s.dout[j]) := by
  rw [step_read hp, readSlot, readEffect, readValue, readTarget_dout j hj]
  rfl

/-- R47: a non-permitted `RD` returns zero. -/
theorem step_read_notPermitted {s : State} {i : BitVec 6} {rest : List Event} (hp : s.pending = .rd i :: rest)
    (h1 : i.toNat ≠ 1) (h2 : i.toNat < 12 ∨ 19 < i.toNat) :
    step s = .next (((s.setPending rest).raise .accessError).giveBack 0) := by
  rw [step_read hp, readSlot, readEffect, readValue, readTarget_notPermitted h1 h2]

/-- R37 I4, R46: with no result, every word of `DOUT` is zero. -/
theorem State.dout_eq_zero {s : State} (hinv : s.noResultZero) (hdv : s.dvalid = false) (j : Fin 4) : s.dout[j] = 0 := by
  simp [hinv hdv]

/-- Settles O13: one rule of `step` for each target of a read; the last clause is the `DOUT` rule under I4. -/
theorem readTransactionEffect : Obligations.ReadTransactionEffect := by
  intro s i rest hp
  refine ⟨step_read_status hp, step_read_din hp, step_read_dout hp,
    fun h1 h2 => step_read_notPermitted hp h1 (by omega), fun hinv hdv hlow hhigh => ?_⟩
  have hread := step_read_dout hp ⟨i.toNat - 16, by omega⟩ (Nat.add_sub_of_le hlow).symm
  rw [State.dout_eq_zero hinv hdv] at hread
  exact hread

/-! ### Non-permitted accesses (R47, R130) -/

/-- Settles O14: the listed slots are those that neither side of the window map permits. -/
theorem nonPermittedAccessOnlyLatches : Obligations.NonPermittedAccessOnlyLatches := by
  refine fun s i rest => ⟨fun v hp hi => ?_, fun hp hi => ?_⟩
  · exact step_write_notPermitted hp (by omega) (by omega)
  · exact step_read_notPermitted hp (by omega) (by omega)

end Sys2Proof.Machine
end

section
/-! SUPPORT. Proofs of the statements on the command word (30_encoding.md R60 to R65): a command and its word determine each
other, a word spells a row of the opcode map exactly when it decodes to the row's command, and 515 words are legal. -/

namespace Sys2Proof

/-! ### A command and its word (R60, R61, R62) -/

theorem encode_kexpE_toNat (klen : BitVec 8) : (encode (.kexpE klen)).toNat = klen.toNat * 256 + 1 := encodeKey_toNat 1 klen

theorem encode_kexpD_toNat (klen : BitVec 8) : (encode (.kexpD klen)).toNat = klen.toNat * 256 + 2 := encodeKey_toNat 2 klen

theorem opField_encodeKey (op klen : BitVec 8) : opField (encodeKey op klen) = op := by
  have hop := op.isLt
  have h : (encodeKey op klen).toNat % 256 = op.toNat := by rw [encodeKey_toNat]; omega
  simpa using (opField_eq_iff _ op.toNat hop).2 h

theorem klenField_encodeKey (op klen : BitVec 8) : klenField (encodeKey op klen) = klen := by
  have hop := op.isLt
  have hklen := klen.isLt
  apply BitVec.eq_of_toNat_eq
  rw [klenField_toNat, encodeKey_toNat]
  omega

theorem zField_encodeKey (op klen : BitVec 8) : zField (encodeKey op klen) = 0 := by
  have hop := op.isLt
  have hklen := klen.isLt
  rw [zField_eq_zero_iff, encodeKey_toNat]
  omega

/-- R61: a format K word carries its command, whatever its operand. -/
theorem decodeKey_encodeKey (op klen : BitVec 8) (command : BitVec 8 → Instr) :
    decodeKey (encodeKey op klen) command = .command (command klen) := by
  rw [decodeKey, if_pos (zField_encodeKey op klen), klenField_encodeKey]

theorem decode_encode (i : Instr) : decode (encode i) = .command i := by
  cases i with
  | kexpE klen => rw [encode, decode, opField_encodeKey, if_pos rfl, decodeKey_encodeKey]
  | kexpD klen => rw [encode, decode, opField_encodeKey, if_neg (by decide), if_pos rfl, decodeKey_encodeKey]
  | enc => decide
  | dec => decide
  | wipe => decide

/-- R62, R64: no command has a second spelling. -/
theorem encode_of_decode {v : Word} {i : Instr} (h : decode v = .command i) : encode i = v := by
  apply BitVec.eq_of_toNat_eq
  rcases decode_command_cases h with ⟨rfl, hop, hz⟩ | ⟨rfl, hop, hz⟩ | ⟨rfl, hv⟩ | ⟨rfl, hv⟩ | ⟨rfl, hv⟩
  · rw [encode_kexpE_toNat, klenField_toNat]
    omega
  · rw [encode_kexpD_toNat, klenField_toNat]
    omega
  all_goals exact hv.symm

theorem decode_eq_command_iff {v : Word} {i : Instr} : decode v = .command i ↔ encode i = v :=
  ⟨encode_of_decode, fun h => h ▸ decode_encode i⟩

theorem encode_injective : Function.Injective encode := fun i j h => by
  simpa [decode_encode] using congrArg decode h

/-! ### The opcode map (R64) -/

/-- R61: a word is the `op` and `klen` of a format K word exactly when its `op` and `z` bits are those of such a word. -/
theorem exists_encodeKey_eq_iff (op : BitVec 8) (v : Word) :
    (∃ klen, encodeKey op klen = v) ↔ v &&& 0xFFFF00FF = op.setWidth 32 := by
  refine ⟨?_, fun h => ⟨klenField v, ?_⟩⟩
  · rintro ⟨klen, rfl⟩
    exact Laws.OpcodeRow.encodeKey_masked op klen
  · have hklen : (klenField v).setWidth 32 <<< 8 = v &&& 0x0000FF00 := by
      apply BitVec.eq_of_getLsbD_eq
      intro n hn
      simp only [klenField, BitVec.getLsbD_and, BitVec.getLsbD_shiftLeft, BitVec.getLsbD_setWidth,
        BitVec.getLsbD_extractLsb']
      interval_cases n <;> simp
    rw [encodeKey, hklen, ← h, ← BitVec.and_or_distrib_left]
    exact BitVec.and_allOnes

/-- R64: what two rows that one word spells have in common. -/
theorem TableRow.value_and_mask_eq {r q : TableRow} {v : Word} (hr : r.spells v = true) (hq : q.spells v = true) :
    r.value &&& q.mask = q.value &&& r.mask := by
  rw [← eq_of_beq hr, ← eq_of_beq hq, BitVec.and_assoc, BitVec.and_assoc, BitVec.and_comm r.mask]

/-- R64: on the bits that both of two rows fix, their matches differ. -/
theorem opcodeMap_pairwise_value_and_mask_ne :
    opcodeMap.Pairwise fun r q => r.value &&& q.mask ≠ q.value &&& r.mask := by decide

/-- Settles O3: a word decodes to a command exactly when it is the command's word, and the rows fix the bits of that word
that are not `klen`. -/
theorem opcodeMapSpellsCommands : Obligations.OpcodeMapSpellsCommands := by
  have hplain (v : Word) (i : Instr) : decode v = .command i ↔ v &&& 0xFFFFFFFF = encode i := by
    rw [decode_eq_command_iff, eq_comm, show (0xFFFFFFFF : Word) = BitVec.allOnes 32 from rfl, BitVec.and_allOnes]
  refine ⟨fun v => ⟨?_, ?_, hplain v .enc, hplain v .dec, hplain v .wipe, ?_⟩, rfl, by decide⟩
  · simp only [decode_eq_command_iff]
    exact exists_encodeKey_eq_iff 0x01 v
  · simp only [decode_eq_command_iff]
    exact exists_encodeKey_eq_iff 0x02 v
  · exact opcodeMap_pairwise_value_and_mask_ne.imp fun hne ⟨hr, hq⟩ => hne (TableRow.value_and_mask_eq hr hq)

/-! ### The arms of decode, by the number the word spells (R62) -/

theorem decode_eq_kexpE {v : Word} (hop : v.toNat % 256 = 1) (hz : v.toNat / 65536 = 0) :
    decode v = .command (.kexpE (BitVec.ofNat 8 (v.toNat / 256))) := by
  rw [decode_eq_command_iff, ← BitVec.toNat_inj, encode_kexpE_toNat, BitVec.toNat_ofNat]
  omega

theorem decode_eq_kexpD {v : Word} (hop : v.toNat % 256 = 2) (hz : v.toNat / 65536 = 0) :
    decode v = .command (.kexpD (BitVec.ofNat 8 (v.toNat / 256))) := by
  rw [decode_eq_command_iff, ← BitVec.toNat_inj, encode_kexpD_toNat, BitVec.toNat_ofNat]
  omega

/-- R61: a word of format N is the number of its `op`. -/
theorem decode_eq_plain {v : Word} {n : Nat} {i : Instr} (hi : (encode i).toNat = n) (hop : v.toNat % 256 = n)
    (hhigh : v.toNat / 256 = 0) : decode v = .command i := by
  rw [decode_eq_command_iff, ← BitVec.toNat_inj]
  omega

/-- R62, R65: the legal words are those of the five arms. -/
theorem exists_command_iff (v : Word) : (∃ i, decode v = .command i) ↔
    (v.toNat % 256 = 1 ∧ v.toNat / 65536 = 0) ∨ (v.toNat % 256 = 2 ∧ v.toNat / 65536 = 0) ∨
    (v.toNat % 256 = 3 ∧ v.toNat / 256 = 0) ∨ (v.toNat % 256 = 4 ∧ v.toNat / 256 = 0) ∨
    (v.toNat % 256 = 5 ∧ v.toNat / 256 = 0) := by
  constructor
  · rintro ⟨i, hd⟩
    rcases decode_command_cases hd with ⟨-, hop, hz⟩ | ⟨-, hop, hz⟩ | ⟨-, hv⟩ | ⟨-, hv⟩ | ⟨-, hv⟩ <;> omega
  · rintro (⟨hop, hz⟩ | ⟨hop, hz⟩ | ⟨hop, hz⟩ | ⟨hop, hz⟩ | ⟨hop, hz⟩)
    · exact ⟨_, decode_eq_kexpE hop hz⟩
    · exact ⟨_, decode_eq_kexpD hop hz⟩
    · exact ⟨.enc, decode_eq_plain rfl hop hz⟩
    · exact ⟨.dec, decode_eq_plain rfl hop hz⟩
    · exact ⟨.wipe, decode_eq_plain rfl hop hz⟩

/-- R62: decode is total, and no word is both legal and illegal. -/
theorem exists_illegal_iff (v : Word) : (∃ r, decode v = .illegal r) ↔ ¬ ∃ i, decode v = .command i := by
  cases decode v <;> simp

/-! ### The number of legal words (R65) -/

/-- R63, R64: a command is one of two key commands with a `klen`, or one of three without operand. -/
def instrEquivSum : Instr ≃ (BitVec 8 ⊕ BitVec 8) ⊕ Fin 3 where
  toFun
    | .kexpE klen => .inl (.inl klen)
    | .kexpD klen => .inl (.inr klen)
    | .enc => .inr 0
    | .dec => .inr 1
    | .wipe => .inr 2
  invFun
    | .inl (.inl klen) => .kexpE klen
    | .inl (.inr klen) => .kexpD klen
    | .inr 0 => .enc
    | .inr 1 => .dec
    | .inr 2 => .wipe
  left_inv i := by cases i <;> rfl
  right_inv
    | .inl (.inl _) => rfl
    | .inl (.inr _) => rfl
    | .inr 0 => rfl
    | .inr 1 => rfl
    | .inr 2 => rfl

/-- R65: 2 * 256 + 3 commands. -/
theorem card_instr : Nat.card Instr = 515 := by
  have hbyte : BitVec 8 ≃ Fin 256 := BitVec.equivFin.toEquiv
  rw [Nat.card_congr (instrEquivSum.trans ((hbyte.sumCongr hbyte).sumCongr (Equiv.refl _)))]
  simp

theorem ncard_legalWords : {v : Word | ∃ i, decode v = .command i}.ncard = 515 := by
  have hrange : {v : Word | ∃ i, decode v = .command i} = Set.range encode :=
    Set.ext fun v => exists_congr fun i => decode_eq_command_iff
  rw [hrange, ← Nat.card_coe_set_eq, Nat.card_range_of_injective encode_injective, card_instr]

end Sys2Proof

namespace Sys2Proof.Machine

/-! ### Writes to slot 0 (R62, R65) -/

/-- R129: a write of an illegal command word. -/
theorem step_illegalWord {s : State} {v : Word} {rest : List Event} {r : IllegalWord} (hp : s.pending = .wr 0 v :: rest)
    (hd : decode v = .illegal r) : step s = .next { s with pending := rest, err := s.err ||| 0b0100#4 } :=
  step_illegal hp rfl hd

/-- Settles O4: one equation of `decode` for each arm. -/
theorem commandWriteDecodeArms : Obligations.CommandWriteDecodeArms := by
  intro s v rest hp
  have hrun {i : Instr} (hd : decode v = .command i) : step s = exec i { s with pending := rest } := step_command hp rfl hd
  split_ifs with h1 h2 h3 h4 h5
  · exact hrun (decode_eq_kexpE h1.1 h1.2)
  · exact hrun (decode_eq_kexpD h2.1 h2.2)
  · exact hrun (decode_eq_plain rfl h3.1 h3.2)
  · exact hrun (decode_eq_plain rfl h4.1 h4.2)
  · exact hrun (decode_eq_plain rfl h5.1 h5.2)
  · obtain ⟨r, hd⟩ : ∃ r, decode v = .illegal r := by
      rw [exists_illegal_iff, exists_command_iff]
      omega
    exact step_illegalWord hp hd

/-- Settles O5: the illegal words are those of no arm of decode, and the legal ones are the words of the commands. -/
theorem illegalWordsOnlyLatch : Obligations.IllegalWordsOnlyLatch := by
  refine ⟨fun v => ?_, fun s v rest r hp hd => step_illegalWord hp hd, ⟨.unknownOp, by decide⟩, ncard_legalWords⟩
  rw [exists_illegal_iff, exists_command_iff]
  omega

end Sys2Proof.Machine
end

section
/-! SUPPORT. Proofs of the statements on the field and the S-box (40_aes_functions.md R76 to R81): bytes as elements of the
quotient ring GF(2)[X] / m(X), where the laws of `gmul` are those of a commutative ring. -/

open Polynomial

namespace Sys2Proof.Machine

/-! ### Bytes as polynomials (R76) -/

/-- R76: `m(x)`, the modulus of the field. -/
noncomputable def fieldModulus : (ZMod 2)[X] := X ^ 8 + X ^ 4 + X ^ 3 + X + 1

/-- R76: the polynomial a byte stands for. -/
noncomputable def bytePoly (a : Byte) : (ZMod 2)[X] :=
  ∑ i ∈ Finset.range 8, if a.getLsbD i = true then X ^ i else 0

theorem degree_fieldModulus : fieldModulus.degree = 8 := by
  unfold fieldModulus
  compute_degree!

theorem fieldModulus_monic : fieldModulus.Monic := by
  unfold fieldModulus
  monicity!

theorem bytePoly_coeff (a : Byte) (i : Nat) : (bytePoly a).coeff i = if a.getLsbD i then 1 else 0 := by
  have hterm (j : Nat) : (if a.getLsbD j = true then (X ^ j : (ZMod 2)[X]) else 0).coeff i =
      if i = j then (if a.getLsbD j then 1 else 0) else 0 := by
    split <;> simp [coeff_X_pow]
  rw [bytePoly, finsetSum_coeff, Finset.sum_congr rfl fun j _ => hterm j, Finset.sum_ite_eq]
  by_cases hi : i < 8
  · simp [hi]
  · simp [hi, BitVec.getLsbD_of_ge a i (by omega)]

theorem degree_bytePoly_lt (a : Byte) : (bytePoly a).degree < fieldModulus.degree := by
  rw [degree_fieldModulus]
  refine (degree_lt_iff_coeff_zero _ 8).2 fun i hi => ?_
  rw [bytePoly_coeff, BitVec.getLsbD_of_ge a i hi, if_neg Bool.false_ne_true]

/-- R76: exclusive-or is addition. -/
theorem bytePoly_xor (a b : Byte) : bytePoly (a ^^^ b) = bytePoly a + bytePoly b := by
  ext i
  rw [coeff_add, bytePoly_coeff, bytePoly_coeff, bytePoly_coeff, BitVec.getLsbD_xor]
  cases a.getLsbD i <;> cases b.getLsbD i <;> decide

/-- A shift multiplies by `x`; the bit that leaves the byte is taken off. -/
theorem bytePoly_shiftLeft_one (a : Byte) :
    bytePoly (a <<< 1) = X * bytePoly a + (if a.getLsbD 7 then X ^ 8 else 0) := by
  ext i
  rw [coeff_add, bytePoly_coeff, BitVec.getLsbD_shiftLeft, apply_ite (coeff · i), coeff_X_pow, coeff_zero]
  cases i with
  | zero => simp
  | succ i =>
    rw [coeff_X_mul, bytePoly_coeff]
    obtain hi | rfl | hi : i < 7 ∨ i = 7 ∨ 7 < i := by omega
    · simp [show i + 1 < 8 by omega, show i ≠ 7 by omega]
    · cases a.getLsbD 7 <;> decide
    · simp [BitVec.getLsbD_of_ge a i (by omega), show ¬ i + 1 < 8 by omega, show i ≠ 7 by omega]

/-- R76: the reduction step of `xtime` adds `m(x)` when bit 7 leaves the byte. -/
theorem bytePoly_xtime (a : Byte) :
    bytePoly (xtime a) = X * bytePoly a + (if a.getLsbD 7 then fieldModulus else 0) := by
  unfold xtime
  split
  · have hlow : bytePoly 0x1B = X ^ 4 + X ^ 3 + X + 1 := by
      simp [bytePoly, Finset.sum_range_succ]
      ring
    rw [bytePoly_xor, bytePoly_shiftLeft_one, if_pos ‹_›, hlow, fieldModulus]
    ring
  · rw [bytePoly_shiftLeft_one, if_neg ‹_›]

/-! ### Bytes as elements of the field (R76) -/

/-- R76: the residue class a byte stands for in GF(2)[X] / m(X). -/
noncomputable def fieldElem (a : Byte) : AdjoinRoot fieldModulus := AdjoinRoot.mk fieldModulus (bytePoly a)

theorem fieldElem_injective : Function.Injective fieldElem := by
  intro a b h
  have hdvd : fieldModulus ∣ bytePoly a - bytePoly b := AdjoinRoot.mk_eq_mk.1 h
  have hzero : bytePoly a = bytePoly b := sub_eq_zero.1 <|
    eq_zero_of_dvd_of_degree_lt hdvd ((degree_sub_le _ _).trans_lt (max_lt (degree_bytePoly_lt a) (degree_bytePoly_lt b)))
  refine BitVec.eq_of_getLsbD_eq fun i _ => ?_
  have hcoeff := congrArg (coeff · i) hzero
  simp only [bytePoly_coeff] at hcoeff
  cases ha : a.getLsbD i <;> cases hb : b.getLsbD i <;> simp_all

theorem fieldElem_inj {a b : Byte} : fieldElem a = fieldElem b ↔ a = b := fieldElem_injective.eq_iff

@[simp] theorem fieldElem_xor (a b : Byte) : fieldElem (a ^^^ b) = fieldElem a + fieldElem b := by
  rw [fieldElem, bytePoly_xor, map_add, fieldElem, fieldElem]

@[simp] theorem fieldElem_zero : fieldElem 0#8 = 0 := by simp [fieldElem, bytePoly]

@[simp] theorem fieldElem_one : fieldElem 1#8 = 1 := by
  have h : bytePoly 1#8 = 1 := by simp [bytePoly]
  rw [fieldElem, h, map_one]

@[simp] theorem fieldElem_xtime (a : Byte) : fieldElem (xtime a) = AdjoinRoot.root fieldModulus * fieldElem a := by
  rw [fieldElem, bytePoly_xtime, map_add, map_mul, AdjoinRoot.mk_X, fieldElem, apply_ite (AdjoinRoot.mk fieldModulus)]
  simp

/-- The loop of `gmul` adds the products of `t` with the powers of `x` that the bits of `b` select. -/
theorem fieldElem_gmulLoop (b : Byte) (n i : Nat) (p t : Byte) :
    fieldElem (gmulLoop b n i p t) = fieldElem p + fieldElem t *
      ∑ j ∈ Finset.range n, if b.getLsbD (i + j) = true then AdjoinRoot.root fieldModulus ^ j else 0 := by
  induction n generalizing i p t with
  | zero => simp [gmulLoop]
  | succ n ih =>
    have hacc : fieldElem (if b.getLsbD i then p ^^^ t else p) = fieldElem p + fieldElem t * (if b.getLsbD i then 1 else 0) := by
      split <;> simp
    have hshift (j : Nat) : (if b.getLsbD (i + (j + 1)) = true then AdjoinRoot.root fieldModulus ^ (j + 1) else 0) =
        AdjoinRoot.root fieldModulus * (if b.getLsbD (i + 1 + j) = true then AdjoinRoot.root fieldModulus ^ j else 0) := by
      rw [Nat.add_right_comm, Nat.add_assoc, mul_ite, mul_zero, pow_succ']
    rw [gmulLoop, ih, hacc, fieldElem_xtime, Finset.sum_range_succ', Finset.sum_congr rfl fun j _ => hshift j, ← Finset.mul_sum]
    simp only [Nat.add_zero, pow_zero]
    ring

@[simp] theorem fieldElem_gmul (a b : Byte) : fieldElem (gmul a b) = fieldElem a * fieldElem b := by
  have hb : fieldElem b = ∑ j ∈ Finset.range 8, if b.getLsbD j = true then AdjoinRoot.root fieldModulus ^ j else 0 := by
    simp [fieldElem, bytePoly, apply_ite (AdjoinRoot.mk fieldModulus)]
  simp [gmul, fieldElem_gmulLoop, hb]

/-! ### The laws of `gmul` (R76) -/

theorem gmul_comm (a b : Byte) : gmul a b = gmul b a := fieldElem_inj.1 (by simp [mul_comm])

theorem gmul_assoc (a b c : Byte) : gmul (gmul a b) c = gmul a (gmul b c) := fieldElem_inj.1 (by simp [mul_assoc])

theorem gmul_xor (a b c : Byte) : gmul a (b ^^^ c) = gmul a b ^^^ gmul a c := fieldElem_inj.1 (by simp [mul_add])

theorem xor_gmul (a b c : Byte) : gmul (a ^^^ b) c = gmul a c ^^^ gmul b c := fieldElem_inj.1 (by simp [add_mul])

@[simp] theorem gmul_one (a : Byte) : gmul a 1#8 = a := fieldElem_inj.1 (by simp)

@[simp] theorem gmul_zero (a : Byte) : gmul a 0#8 = 0#8 := fieldElem_inj.1 (by simp)

/-- R76: `gmul` is multiplication of polynomials modulo `m(x)`. -/
theorem bytePoly_gmul (a b : Byte) : bytePoly (gmul a b) = (bytePoly a * bytePoly b) %ₘ fieldModulus := by
  have hclass : AdjoinRoot.mk fieldModulus (bytePoly (gmul a b)) = AdjoinRoot.mk fieldModulus (bytePoly a * bytePoly b) := by
    rw [map_mul]
    exact fieldElem_gmul a b
  rw [← modByMonic_eq_of_dvd_sub fieldModulus_monic (AdjoinRoot.mk_eq_mk.1 hclass),
    (modByMonic_eq_self_iff fieldModulus_monic).2 (degree_bytePoly_lt _)]

/-- R76: the loop as a fold over the bit positions. -/
theorem gmulLoop_eq_foldl (b a : Byte) (n i : Nat) (p : Byte) : gmulLoop b n i p (xtime^[i] a) =
    (List.range' i n).foldl (fun p j => if b.getLsbD j = true then p ^^^ (xtime^[j] a) else p) p := by
  induction n generalizing i p with
  | zero => rfl
  | succ n ih => rw [gmulLoop, ← Function.iterate_succ_apply' xtime, ih, List.range'_succ, List.foldl_cons]

/-- Settles O44: in GF(2)[X] / m(X), where a byte is the class of its polynomial, the laws are those of the ring. -/
theorem fieldMultiplicationLaws : Obligations.FieldMultiplicationLaws :=
  ⟨fun _ => rfl, fun a b => by rw [List.range_eq_range']; exact gmulLoop_eq_foldl b a 8 0 0, ⟨bytePoly_xor, bytePoly_gmul⟩,
    gmul_comm, gmul_assoc, gmul_xor, gmul_one, gmul_zero, by decide⟩

/-! ### The constant multipliers (R77) -/

theorem gmul_02 (a : Byte) : gmul a 0x02 = xtime a := by
  simp [gmul, gmulLoop]

theorem gmul_03 (a : Byte) : gmul a 0x03 = xtime a ^^^ a := by
  simp [gmul, gmulLoop, BitVec.xor_comm]

theorem gmul_09 (a : Byte) : gmul a 0x09 = xtime (xtime (xtime a)) ^^^ a := by
  simp [gmul, gmulLoop, BitVec.xor_comm]

theorem gmul_0b (a : Byte) : gmul a 0x0b = xtime (xtime (xtime a)) ^^^ xtime a ^^^ a := by
  simp [gmul, gmulLoop, BitVec.xor_comm, BitVec.xor_assoc]

theorem gmul_0d (a : Byte) : gmul a 0x0d = xtime (xtime (xtime a)) ^^^ xtime (xtime a) ^^^ a := by
  simp [gmul, gmulLoop, BitVec.xor_comm, BitVec.xor_assoc]

theorem gmul_0e (a : Byte) : gmul a 0x0e = xtime (xtime (xtime a)) ^^^ xtime (xtime a) ^^^ xtime a := by
  simp [gmul, gmulLoop, BitVec.xor_comm, BitVec.xor_assoc]

/-- Settles O45: each turn of the loop whose bit of the constant is set adds its multiple. -/
theorem constantMultipliers : Obligations.ConstantMultipliers :=
  fun a => ⟨gmul_02 a, gmul_03 a, gmul_09 a, gmul_0b a, gmul_0d a, gmul_0e a⟩

/-! ### The inverse (R78) -/

/-- R78: the search finds an inverse if there is one in its range. -/
theorem gmul_ginvSearch {a b : Byte} {n : Nat} (hb : gmul a b = 1) (hbn : b.toNat ≤ n) : gmul a (ginvSearch a n) = 1 := by
  induction n with
  | zero =>
    have : b = 0 := BitVec.eq_of_toNat_eq (Nat.le_zero.1 hbn)
    rwa [this] at hb
  | succ n ih =>
    rw [ginvSearch]
    split
    · assumption
    · next hne =>
      refine ih (Nat.le_of_lt_succ (lt_of_le_of_ne hbn fun h : b.toNat = n + 1 => hne ?_))
      rwa [← h, BitVec.ofNat_toNat, BitVec.setWidth_eq]

/-- R78: a byte has at most one inverse. -/
theorem eq_of_gmul_eq_one {a b c : Byte} (hb : gmul a b = 1) (hc : gmul a c = 1) : b = c := calc
  b = gmul b (gmul a c) := by rw [hc]; exact (gmul_one b).symm
  _ = gmul (gmul a b) c := by rw [← gmul_assoc, gmul_comm b a]
  _ = c := by rw [hb, gmul_comm]; exact gmul_one c

/-- R78: an inverse, once known, is the one the search finds. -/
theorem ginv_eq_of_gmul_eq_one {a b : Byte} (hb : gmul a b = 1) : ginv a = b :=
  eq_of_gmul_eq_one (gmul_ginvSearch hb (Nat.le_of_lt_succ b.isLt)) hb

/-- R78: no byte multiplies 0 to 1, so the search ends in the convention. -/
theorem ginvSearch_zero (n : Nat) : ginvSearch 0 n = 0 := by
  induction n with
  | zero => rfl
  | succ n ih =>
    have hzero : gmul 0 (BitVec.ofNat 8 (n + 1)) = 0 := (gmul_comm _ _).trans (gmul_zero _)
    rw [ginvSearch, hzero, if_neg (by decide), ih]

theorem ginv_zero : ginv 0 = 0 := ginvSearch_zero 255

/-! ### The S-box and its inverse (R79, R81) -/

/-- The inverse of the affine map of R79. -/
def sboxAffineInv (b : Byte) : Byte := b.rotateLeft 1 ^^^ b.rotateLeft 3 ^^^ b.rotateLeft 6 ^^^ 0x05

theorem sboxAffine_sboxAffineInv : ∀ b : Byte, sboxAffine (sboxAffineInv b) = b := by decide

/-- R79: the affine map taken off the printed table leaves a table of inverses. -/
theorem gmul_sboxAffineInv_sbox : ∀ a : Byte, a ≠ 0 → gmul a (sboxAffineInv (sbox a)) = 1 := by decide

theorem ginv_eq_sboxAffineInv {a : Byte} (ha : a ≠ 0) : ginv a = sboxAffineInv (sbox a) :=
  ginv_eq_of_gmul_eq_one (gmul_sboxAffineInv_sbox a ha)

theorem gmul_ginv {a : Byte} (ha : a ≠ 0) : gmul a (ginv a) = 1 := by
  rw [ginv_eq_sboxAffineInv ha, gmul_sboxAffineInv_sbox a ha]

/-- R79: the table entry is the affine map of the inverse. -/
theorem sbox_eq_sboxAffine_ginv (a : Byte) : sbox a = sboxAffine (ginv a) := by
  by_cases ha : a = 0
  · rw [ha, ginv_zero]
    decide
  · rw [ginv_eq_sboxAffineInv ha, sboxAffine_sboxAffineInv]

/-- R79: a rotation left by `n` is one right by `8 - n`: it moves bit `i + (8 - n)` to bit `i`. -/
theorem getLsbD_rotateLeft_byte (b : Byte) {n m i : Nat} (hm : 0 < m) (hnm : n + m = 8) (hi : i < 8) :
    (b.rotateLeft n).getLsbD i = b.getLsbD ((i + m) % 8) := by
  rw [BitVec.getLsbD_rotateLeft, Nat.mod_eq_of_lt (show n < 8 by omega), show 8 - n = m by omega]
  by_cases h : i < n
  · simp [h, Nat.add_comm m i, Nat.mod_eq_of_lt (show i + m < 8 by omega)]
  · simp [h, hi, show (i + m) % 8 = i - n by omega]

/-- R79: the affine map bit by bit. -/
theorem sboxAffine_getLsbD (b : Byte) {i : Nat} (h : i < 8) : (sboxAffine b).getLsbD i =
    (b.getLsbD i ^^ b.getLsbD ((i + 4) % 8) ^^ b.getLsbD ((i + 5) % 8) ^^ b.getLsbD ((i + 6) % 8) ^^
      b.getLsbD ((i + 7) % 8) ^^ (0x63#8).getLsbD i) := by
  rw [sboxAffine]
  simp only [BitVec.getLsbD_xor, BitVec.ofNat_eq_ofNat]
  rw [getLsbD_rotateLeft_byte b (m := 7) (by decide) rfl h, getLsbD_rotateLeft_byte b (m := 6) (by decide) rfl h,
    getLsbD_rotateLeft_byte b (m := 5) (by decide) rfl h, getLsbD_rotateLeft_byte b (m := 4) (by decide) rfl h]
  simp only [Bool.xor_comm, Bool.xor_assoc, Bool.xor_left_comm]

@[simp] theorem invSbox_sbox : ∀ a : Byte, invSbox (sbox a) = a := by decide

@[simp] theorem sbox_invSbox : ∀ a : Byte, sbox (invSbox a) = a := by decide

/-- Settles O46: the inverses are those the S-box table holds, and a byte has at most one. -/
theorem fieldInverse : Obligations.FieldInverse :=
  ⟨fun _ ha => ⟨gmul_ginv ha, fun _ hb => eq_of_gmul_eq_one hb (gmul_ginv ha)⟩, ginv_zero,
    ginv_eq_of_gmul_eq_one (by decide), ginv_eq_of_gmul_eq_one (by decide), ginv_eq_of_gmul_eq_one (by decide)⟩

/-- Settles O48: the two printed tables, entry by entry. -/
theorem inverseSbox : Obligations.InverseSbox := ⟨invSbox_sbox, sbox_invSbox, by decide⟩

/-- Settles O47: the table is the affine map of the inverse; it is bijective because the inverse table undoes it. -/
theorem sboxIsAlgebraic : Obligations.SboxIsAlgebraic :=
  ⟨sbox_eq_sboxAffine_ginv, fun a _ hi => sbox_eq_sboxAffine_ginv a ▸ sboxAffine_getLsbD (ginv a) hi, by decide,
    Function.bijective_iff_has_inverse.2 ⟨invSbox, invSbox_sbox, sbox_invSbox⟩, by decide, by decide⟩

end Sys2Proof.Machine
end

section
/-! SUPPORT. Proofs of the statements on the round transformations (40_aes_functions.md R82 to R86): where each moves a byte,
the columns as words, and the inverses of each. -/

namespace Sys2Proof.Machine

/-! ### Words and their bytes, blocks and their columns (R18, R80) -/

theorem word_ext_bytes {v w : Word} (h : ∀ j < 4, byteOf v j = byteOf w j) : v = w := by
  rw [← wordOf_byteOf v, ← wordOf_byteOf w, h 0 (by decide), h 1 (by decide), h 2 (by decide), h 3 (by decide)]

/-- R80: a block is its four column words. -/
theorem block_ext_words {s t : Block} (h : ∀ (c : Nat) (hc : c < 4), (wordsOf s)[c] = (wordsOf t)[c]) : s = t := by
  rw [← blockOf_wordsOf s, Vector.ext h, blockOf_wordsOf]

theorem byteOf_wordOf (a0 a1 a2 a3 : Byte) {j : Nat} (hj : j < 4) : byteOf (wordOf a0 a1 a2 a3) j = #v[a0, a1, a2, a3][j] := by
  interval_cases j <;> simp

theorem wordOf_xor (a0 a1 a2 a3 b0 b1 b2 b3 : Byte) : wordOf (a0 ^^^ b0) (a1 ^^^ b1) (a2 ^^^ b2) (a3 ^^^ b3) =
    wordOf a0 a1 a2 a3 ^^^ wordOf b0 b1 b2 b3 :=
  word_ext_bytes fun j hj => by interval_cases j <;> simp

theorem wordsOf_zipWith_xor_getElem (s t : Block) (c : Nat) (hc : c < 4) :
    (wordsOf (Vector.zipWith (· ^^^ ·) s t))[c] = (wordsOf s)[c] ^^^ (wordsOf t)[c] := by
  simp [wordOf_xor]

/-- R80: byte `4c + j` of a block is byte `j` of its column word `c`. -/
theorem byteOf_wordsOf_column (s : Block) {c j : Nat} (hc : c < 4) (hj : j < 4) : byteOf (wordsOf s)[c] j = s[4 * c + j] := by
  have h := byteOf_wordsOf s (show 4 * c + j < 16 by omega)
  simpa only [show (4 * c + j) / 4 = c by omega, show (4 * c + j) % 4 = j by omega] using h

/-! ### SubBytes and ShiftRows (R82, R83) -/

theorem shiftRows_row_column (s : Block) {r c : Nat} (hr : r < 4) (hc : c < 4) :
    (shiftRows s)[r + 4 * c] = s[r + 4 * ((c + r) % 4)] := by
  simp only [shiftRows_getElem, show (r + 4 * c) % 4 = r by omega, show (r + 4 * c) / 4 = c by omega]

theorem invShiftRows_row_column (s : Block) {r c : Nat} (hr : r < 4) (hc : c < 4) :
    (invShiftRows s)[r + 4 * ((c + r) % 4)] = s[r + 4 * c] := by
  simp only [invShiftRows_getElem, show (r + 4 * ((c + r) % 4)) % 4 = r by omega,
    show (r + 4 * ((c + r) % 4)) / 4 = (c + r) % 4 by omega, show ((c + r) % 4 + 4 - r) % 4 = c by omega]

@[simp] theorem invShiftRows_shiftRows (s : Block) : invShiftRows (shiftRows s) = s := by
  ext1 k hk
  rw [invShiftRows_getElem, shiftRows_row_column s (by omega) (by omega)]
  exact getElem_congr_idx (by omega)

@[simp] theorem shiftRows_invShiftRows (s : Block) : shiftRows (invShiftRows s) = s := by
  ext1 k hk
  rw [shiftRows_getElem, invShiftRows_row_column s (by omega) (by omega)]
  exact getElem_congr_idx (by omega)

@[simp] theorem invSubBytes_subBytes (s : Block) : invSubBytes (subBytes s) = s := by
  ext1 k hk
  simp

@[simp] theorem subBytes_invSubBytes (s : Block) : subBytes (invSubBytes s) = s := by
  ext1 k hk
  simp

/-- R94: one acts on byte values, the other on byte positions. -/
theorem invSubBytes_invShiftRows (s : Block) : invSubBytes (invShiftRows s) = invShiftRows (invSubBytes s) := by
  ext1 k hk
  simp only [invSubBytes_getElem, invShiftRows_getElem]

/-- Settles O49: byte by byte; the index lists are the row and column formulas at each of the 16 positions. -/
theorem substitutionAndRowShifts : Obligations.SubstitutionAndRowShifts := by
  refine ⟨fun s k h => ⟨subBytes_getElem s k h, invSubBytes_getElem s k h⟩,
    fun s r c hr hc => ⟨shiftRows_row_column s hr hc, invShiftRows_row_column s hr hc⟩, fun s => ⟨?_, ?_⟩⟩
  · refine List.ext_getElem (by simp) fun k hk _ => ?_
    rw [Vector.length_toList] at hk
    interval_cases k <;> simp [shiftRows_getElem]
  · refine List.ext_getElem (by simp) fun k hk _ => ?_
    rw [Vector.length_toList] at hk
    interval_cases k <;> simp [invShiftRows_getElem]

/-! ### One column (R84, R85) -/

/-- R84: the byte of a mixed column in the row of `a`, with `b`, `c`, `d` the bytes below it, going round. -/
def mixByte (a b c d : Byte) : Byte := gmul a 2 ^^^ gmul b 3 ^^^ c ^^^ d

/-- R85: the same byte for `InvMixColumn`. -/
def invMixByte (a b c d : Byte) : Byte := gmul a 0x0e ^^^ gmul b 0x0b ^^^ gmul c 0x0d ^^^ gmul d 0x09

/-- R84: the four rows are one formula, going round. -/
theorem mixColumn_eq (a0 a1 a2 a3 : Byte) : mixColumn a0 a1 a2 a3 =
    #v[mixByte a0 a1 a2 a3, mixByte a1 a2 a3 a0, mixByte a2 a3 a0 a1, mixByte a3 a0 a1 a2] := by
  simp only [mixColumn, mixByte]
  congr 4 <;> ac_rfl

/-- R85: the four rows are one formula, going round. -/
theorem invMixColumn_eq (a0 a1 a2 a3 : Byte) : invMixColumn a0 a1 a2 a3 =
    #v[invMixByte a0 a1 a2 a3, invMixByte a1 a2 a3 a0, invMixByte a2 a3 a0 a1, invMixByte a3 a0 a1 a2] := by
  simp only [invMixColumn, invMixByte]
  congr 4 <;> ac_rfl

theorem invMixByte_xor (a b c d a' b' c' d' : Byte) :
    invMixByte (a ^^^ a') (b ^^^ b') (c ^^^ c') (d ^^^ d') = invMixByte a b c d ^^^ invMixByte a' b' c' d' := by
  simp only [invMixByte, xor_gmul]
  ac_rfl

/-- The field has characteristic 2. -/
theorem fieldRing_two_eq_zero : (2 : AdjoinRoot fieldModulus) = 0 := by
  have h : fieldElem 1#8 + fieldElem 1#8 = 0 := by rw [← fieldElem_xor, BitVec.xor_self, fieldElem_zero]
  simpa [one_add_one_eq_two] using h

theorem fieldElem_mixByte (a b c d : Byte) : fieldElem (mixByte a b c d) =
    AdjoinRoot.root fieldModulus * fieldElem a + (AdjoinRoot.root fieldModulus + 1) * fieldElem b + fieldElem c +
      fieldElem d := by
  simp only [mixByte, gmul_02, gmul_03, fieldElem_xor, fieldElem_xtime]
  ring

theorem fieldElem_invMixByte (a b c d : Byte) : fieldElem (invMixByte a b c d) =
    let x := AdjoinRoot.root fieldModulus
    (x ^ 3 + x ^ 2 + x) * fieldElem a + (x ^ 3 + x + 1) * fieldElem b + (x ^ 3 + x ^ 2 + 1) * fieldElem c +
      (x ^ 3 + 1) * fieldElem d := by
  simp only [invMixByte, gmul_0e, gmul_0b, gmul_0d, gmul_09, fieldElem_xor, fieldElem_xtime]
  ring

/-- R84, R85: the two circulant matrices undo each other: their product, the same either way, is the identity plus twice
another matrix. -/
theorem invMixByte_mixByte_and_mixByte_invMixByte (a b c d : Byte) :
    invMixByte (mixByte a b c d) (mixByte b c d a) (mixByte c d a b) (mixByte d a b c) = a ∧
    mixByte (invMixByte a b c d) (invMixByte b c d a) (invMixByte c d a b) (invMixByte d a b c) = a := by
  constructor <;>
  · refine fieldElem_injective ?_
    simp only [fieldElem_invMixByte, fieldElem_mixByte]
    generalize AdjoinRoot.root fieldModulus = x
    linear_combination ((1 + x + x ^ 2 + 2 * x ^ 3 + x ^ 4) * fieldElem a +
      (1 + x + 2 * x ^ 2 + 2 * x ^ 3 + x ^ 4) * fieldElem b +
      (1 + 2 * x + x ^ 2 + 2 * x ^ 3 + x ^ 4) * (fieldElem c + fieldElem d)) * fieldRing_two_eq_zero

theorem invMixByte_mixByte (a b c d : Byte) :
    invMixByte (mixByte a b c d) (mixByte b c d a) (mixByte c d a b) (mixByte d a b c) = a :=
  (invMixByte_mixByte_and_mixByte_invMixByte a b c d).1

theorem mixByte_invMixByte (a b c d : Byte) :
    mixByte (invMixByte a b c d) (invMixByte b c d a) (invMixByte c d a b) (invMixByte d a b c) = a :=
  (invMixByte_mixByte_and_mixByte_invMixByte a b c d).2

/-! ### All four columns (R84, R85) -/

theorem onColumns_column (f : Byte → Byte → Byte → Byte → Vector Byte 4) (s : Block) {c j : Nat} (hc : c < 4) (hj : j < 4) :
    (onColumns f s)[4 * c + j] = (f s[4 * c] s[4 * c + 1] s[4 * c + 2] s[4 * c + 3])[j] := by
  simp only [onColumns_getElem, show (4 * c + j) / 4 = c by omega, show (4 * c + j) % 4 = j by omega]

/-- A map on one column that undoes another does so on every column. -/
theorem onColumns_onColumns {f g : Byte → Byte → Byte → Byte → Vector Byte 4}
    (h : ∀ a0 a1 a2 a3, f (g a0 a1 a2 a3)[0] (g a0 a1 a2 a3)[1] (g a0 a1 a2 a3)[2] (g a0 a1 a2 a3)[3] = #v[a0, a1, a2, a3])
    (s : Block) : onColumns f (onColumns g s) = s := by
  ext1 k hk
  have hcol (c : Nat) (hc : c < 4) : (onColumns g s)[4 * c] = (g s[4 * c] s[4 * c + 1] s[4 * c + 2] s[4 * c + 3])[0] :=
    onColumns_column g s hc (j := 0) (by decide)
  rw [onColumns_getElem, hcol _ (by omega), onColumns_column g s (by omega) (by decide),
    onColumns_column g s (by omega) (by decide), onColumns_column g s (by omega) (by decide)]
  simp only [h]
  interval_cases k <;> rfl

@[simp] theorem invMixColumns_mixColumns (s : Block) : invMixColumns (mixColumns s) = s :=
  onColumns_onColumns (fun a0 a1 a2 a3 => by simp [mixColumn_eq, invMixColumn_eq, invMixByte_mixByte]) s

@[simp] theorem mixColumns_invMixColumns (s : Block) : mixColumns (invMixColumns s) = s :=
  onColumns_onColumns (fun a0 a1 a2 a3 => by simp [mixColumn_eq, invMixColumn_eq, mixByte_invMixByte]) s

/-- Settles O50: the equations of one column on every column; the two matrices are inverse in the field. -/
theorem columnMixing : Obligations.ColumnMixing := by
  refine ⟨fun s c h => ⟨?_, ?_, ?_, ?_⟩, fun s c h => ⟨?_, ?_, ?_, ?_⟩, invMixColumns_mixColumns, mixColumns_invMixColumns,
    by decide⟩
  · exact onColumns_column mixColumn s h (j := 0) (by decide)
  · exact onColumns_column mixColumn s h (by decide)
  · exact onColumns_column mixColumn s h (by decide)
  · exact onColumns_column mixColumn s h (by decide)
  · exact onColumns_column invMixColumn s h (j := 0) (by decide)
  · exact onColumns_column invMixColumn s h (by decide)
  · exact onColumns_column invMixColumn s h (by decide)
  · exact onColumns_column invMixColumn s h (by decide)

/-! ### The columns as words (R86, R91) -/

/-- R91: `InvMixWord` byte by byte. -/
theorem byteOf_invMixWord (w : Word) {j : Nat} (hj : j < 4) :
    byteOf (invMixWord w) j = (invMixColumn (byteOf w 0) (byteOf w 1) (byteOf w 2) (byteOf w 3))[j] := by
  rw [invMixWord, byteOf_wordOf _ _ _ _ hj]
  interval_cases j <;> rfl

theorem invMixWord_xor (v w : Word) : invMixWord (v ^^^ w) = invMixWord v ^^^ invMixWord w := by
  refine word_ext_bytes fun j hj => ?_
  simp only [byteOf_xor, byteOf_invMixWord _ hj, invMixColumn_eq, invMixByte_xor]
  interval_cases j <;> rfl

/-- R91: on a column as a word, `InvMixColumns` is `InvMixWord`. -/
theorem wordsOf_invMixColumns_getElem (s : Block) (c : Nat) (hc : c < 4) :
    (wordsOf (invMixColumns s))[c] = invMixWord (wordsOf s)[c] := by
  refine word_ext_bytes fun j hj => ?_
  rw [byteOf_wordsOf_column _ hc hj, invMixColumns, onColumns_column _ _ hc hj, byteOf_invMixWord _ hj]
  simp only [byteOf_wordsOf_column s hc (show 0 < 4 by decide), byteOf_wordsOf_column s hc (show 1 < 4 by decide),
    byteOf_wordsOf_column s hc (show 2 < 4 by decide), byteOf_wordsOf_column s hc (show 3 < 4 by decide), Nat.add_zero]

theorem addRoundKey_column (s : Block) (w : Schedule) (r : Nat) {c j : Nat} (hc : c < 4) (hj : j < 4) :
    (addRoundKey s w r)[4 * c + j] = s[4 * c + j] ^^^ byteOf (scheduleWord w (4 * r + c)) j := by
  simp only [addRoundKey_getElem, show (4 * c + j) / 4 = c by omega, show (4 * c + j) % 4 = j by omega]

/-- R86: in words, round key `r` is added column by column. -/
theorem wordsOf_addRoundKey_getElem (s : Block) (w : Schedule) (r c : Nat) (hc : c < 4) :
    (wordsOf (addRoundKey s w r))[c] = (wordsOf s)[c] ^^^ scheduleWord w (4 * r + c) :=
  word_ext_bytes fun j hj => by
    rw [byteOf_xor, byteOf_wordsOf_column _ hc hj, byteOf_wordsOf_column _ hc hj, addRoundKey_column s w r hc hj]

@[simp] theorem addRoundKey_addRoundKey (s : Block) (w : Schedule) (r : Nat) : addRoundKey (addRoundKey s w r) w r = s :=
  block_ext_words fun c hc => by
    rw [wordsOf_addRoundKey_getElem, wordsOf_addRoundKey_getElem, BitVec.xor_assoc, BitVec.xor_self, BitVec.xor_zero]

/-- R95 L3: `InvMixColumns` is linear. -/
theorem invMixColumns_xor (s t : Block) : invMixColumns (Vector.zipWith (· ^^^ ·) s t) =
    Vector.zipWith (· ^^^ ·) (invMixColumns s) (invMixColumns t) :=
  block_ext_words fun c hc => by
    rw [wordsOf_invMixColumns_getElem, wordsOf_zipWith_xor_getElem, invMixWord_xor, wordsOf_zipWith_xor_getElem,
      wordsOf_invMixColumns_getElem, wordsOf_invMixColumns_getElem]

/-- Settles O51: byte by byte, and from there column word by column word. -/
theorem roundKeyAddition : Obligations.RoundKeyAddition := by
  refine ⟨fun s w r c j hr hc hj => ?_, fun s w r c hr hc => ?_, addRoundKey_addRoundKey⟩
  · rw [addRoundKey_column s w r hc hj, scheduleWord_of_lt]
  · rw [wordsOf_addRoundKey_getElem, scheduleWord_of_lt]

end Sys2Proof.Machine
end

section
/-! SUPPORT. Proofs of the statements on key expansion (40_aes_functions.md R87 to R92): the recurrence of the second loop, and
the decryption-order schedule word by word. -/

namespace Sys2Proof.Machine

/-! ### The word functions (R87, R88) -/

theorem rotWord_eq_shifts (w : Word) : rotWord w = w <<< 8 ||| w >>> 24 := by
  refine BitVec.eq_of_getLsbD_eq fun i hi => ?_
  simp only [rotWord, byteOf, wordOf, BitVec.getLsbD_extractLsb', BitVec.getLsbD_or, BitVec.getLsbD_shiftLeft,
    BitVec.getLsbD_ushiftRight, BitVec.getLsbD_setWidth]
  interval_cases i <;> simp

theorem xpow_eq_iterate (a : Byte) (n : Nat) : xpow a n = xtime^[n] a := by
  induction n with
  | zero => rfl
  | succ n ih => rw [xpow, ih, Function.iterate_succ_apply']

theorem expandTemp_of_dvd {nk i : Nat} (h : i % nk = 0) (w : Word) :
    expandTemp nk i w = subWord (rotWord w) ^^^ rcon (i / nk) := if_pos h

theorem expandTemp_of_not_dvd {nk i : Nat} (h : i % nk ≠ 0) (w : Word) :
    expandTemp nk i w = if nk = 8 ∧ i % nk = 4 then subWord w else w := if_neg h

/-- R88: the numbers of the round constants each key length uses. -/
theorem rcon_index_bounds {nk i : Nat} (hnk : nk = 4 ∨ nk = 6 ∨ nk = 8) (hi : nk ≤ i) (hlast : i ≤ 4 * (nk + 6 + 1) - 1) :
    1 ≤ i / nk ∧ i / nk ≤ if nk = 4 then 10 else if nk = 6 then 8 else 7 := by
  rcases hnk with rfl | rfl | rfl <;> simp <;> omega

/-- Settles O52: the branches of the definitions, and the bits of a rotated word. -/
theorem keyExpansionWordFunctions : Obligations.KeyExpansionWordFunctions :=
  ⟨fun _ => rfl, fun w => ⟨rfl, rotWord_eq_shifts w⟩, fun w _ h => byteOf_invMixWord w h, by decide,
    fun j _ => by rw [rcon, xpow_eq_iterate], fun _ _ w h => expandTemp_of_not_dvd h w, fun _ _ w h => expandTemp_of_dvd h w,
    fun _ _ hnk hi hlast _ => rcon_index_bounds hnk hi hlast, by decide⟩

/-! ### Encryption order (R90) -/

/-- R90: the second loop, `n` turns from word `i` on, leaves words that satisfy the recurrence. -/
theorem expandLoop_recurrence {nk n i j : Nat} (w : Schedule) (hnk : 0 < nk) (hi : 0 < i) (h : j < 60)
    (hij : i ≤ j) (hjn : j < i + n) :
    (expandLoop nk n i w)[j] =
      (expandLoop nk n i w)[j - nk] ^^^ expandTemp nk j (expandLoop nk n i w)[j - 1] := by
  induction n generalizing i w with
  | zero => omega
  | succ n ih =>
    rw [expandLoop]
    obtain rfl | hlt := Nat.eq_or_lt_of_le hij
    · have hbefore (m : Nat) (hm : m < i) : (expandLoop nk n (i + 1) (expandStep nk i w))[m] = w[m] := by
        rw [expandLoop_below nk n _ _ m (by omega) (by omega), expandStep_getElem nk i w m (by omega) h, if_neg (by omega)]
      rw [hbefore (i - nk) (by omega), hbefore (i - 1) (by omega), expandLoop_below nk n _ _ i h (by omega),
        expandStep_getElem nk i w i h h, if_pos rfl]
    · exact ih _ (by omega) (by omega) (by omega)

theorem expandEnc_key {k : List Byte} {nk i : Nat} (hk : k.length = 4 * nk) (h : i < 60) (hi : i < nk) : (expandEnc k nk)[i] =
    wordOf (k.getD (4 * i) 0) (k.getD (4 * i + 1) 0) (k.getD (4 * i + 2) 0) (k.getD (4 * i + 3) 0) := by
  rw [expandEnc, expandLoop_below nk _ nk _ i h hi, expandInit, Vector.getElem_ofFn, packWords_getD k nk i hk hi]

theorem expandEnc_recurrence (k : List Byte) {nk i : Nat} (hnk : 0 < nk) (h : i < 60) (hi : nk ≤ i)
    (hlast : i < 4 * (nk + 6 + 1)) :
    (expandEnc k nk)[i] = (expandEnc k nk)[i - nk] ^^^ expandTemp nk i (expandEnc k nk)[i - 1] :=
  expandLoop_recurrence (expandInit k) hnk hnk h hi (by rw [roundCount]; omega)

/-- R90: the tail is the zero fill. -/
theorem expandEnc_tail {k : List Byte} {nk i : Nat} (hk : k.length = 4 * nk) (h : i < 60) (hi : 4 * (nk + 6 + 1) ≤ i) :
    (expandEnc k nk)[i] = 0 := by
  rw [expandEnc, expandLoop_above nk _ nk _ i h (by rw [roundCount]; omega), expandInit, Vector.getElem_ofFn,
    List.getD_eq_default _ _ (by rw [packWords_length k nk hk]; show nk ≤ i; omega)]

/-- Settles O53: the recurrence of the loop; the worked values by running the expansion. -/
theorem encryptionScheduleRecurrence : Obligations.EncryptionScheduleRecurrence := by
  refine ⟨fun k nk hnk hk => ⟨fun i h hi => expandEnc_key hk h hi, fun i h hi hlast => ?_,
    fun i h hi => expandEnc_tail hk h hi⟩, ?_⟩
  · exact expandEnc_recurrence k (by omega) h hi (by omega)
  · decide +kernel

/-! ### Decryption order (R92) -/

theorem decryptOrder_roundKey (e : Schedule) {nr r c : Nat} (hr : r < 15) (hc : c < 4) (hrn : r ≤ nr) :
    (decryptOrder e nr)[4 * r + c] = decryptWord e nr r c := by
  rw [decryptOrder_getElem]
  simp only [show (4 * r + c) / 4 = r by omega, show (4 * r + c) % 4 = c by omega, if_pos hrn]

theorem decryptOrder_tail (e : Schedule) {nr i : Nat} (h : i < 60) (hi : 4 * (nr + 1) ≤ i) : (decryptOrder e nr)[i] = 0 := by
  rw [decryptOrder_getElem, if_neg (by omega)]

/-- Settles O54: word by word; the worked values by running the expansion. -/
theorem decryptionScheduleReversed : Obligations.DecryptionScheduleReversed := by
  refine ⟨fun k nk hnk hk => ⟨fun r c hr hc hrn => decryptOrder_roundKey _ hr hc hrn,
    fun i h _ => scheduleWord_of_lt _ i h, fun i h hi => decryptOrder_tail _ h hi⟩, ?_⟩
  decide +kernel

end Sys2Proof.Machine
end

section
/-! SUPPORT. Proofs of the statements on the two ciphers (40_aes_functions.md R93 to R95): each is its loop, and each undoes the
other when one schedule is the other in decryption order. -/

namespace Sys2Proof.Machine

/-! ### The loops of rounds (R93, R94) -/

/-- R93: the state after `r` full rounds is the fold of the loop body over 1 to `r`. -/
theorem cipherState_eq_foldl (b : Block) (w : Schedule) (r : Nat) : cipherState b w r =
    (List.range' 1 r).foldl (fun s r => addRoundKey (mixColumns (shiftRows (subBytes s))) w r) (addRoundKey b w 0) := by
  induction r with
  | zero => rfl
  | succ r ih => rw [cipherState, ih, List.range'_1_concat, List.foldl_concat, Nat.add_comm]

theorem eqInvCipherState_eq_foldl (b : Block) (d : Schedule) (r : Nat) : eqInvCipherState b d r =
    (List.range' 1 r).foldl (fun s r => addRoundKey (invMixColumns (invShiftRows (invSubBytes s))) d r)
      (addRoundKey b d 0) := by
  induction r with
  | zero => rfl
  | succ r ih => rw [eqInvCipherState, ih, List.range'_1_concat, List.foldl_concat, Nat.add_comm]

/-- Settles O55: the full rounds as a fold; the worked values by running the cipher. -/
theorem cipherRoundLoop : Obligations.CipherRoundLoop :=
  ⟨fun b w nr => by rw [cipher, cipherState_eq_foldl], by decide +kernel⟩

/-- Settles O56: the full rounds as a fold. -/
theorem inverseCipherRoundLoop : Obligations.InverseCipherRoundLoop :=
  ⟨fun b d nr => by rw [eqInvCipher, eqInvCipherState_eq_foldl], invSubBytes_invShiftRows⟩

/-! ### Round keys in decryption order (R92, R95 L3) -/

/-- R92: the first and the last round key only change places. -/
theorem addRoundKey_decryptOrder_outer (s : Block) (e : Schedule) {nr r : Nat} (hr : r = 0 ∨ r = nr) (hnr : nr ≤ 14) :
    addRoundKey s (decryptOrder e nr) r = addRoundKey s e (nr - r) :=
  block_ext_words fun c hc => by
    rw [wordsOf_addRoundKey_getElem, wordsOf_addRoundKey_getElem, scheduleWord_of_lt _ _ (by omega),
      decryptOrder_roundKey e (by omega) hc (by omega), decryptWord, if_neg (by omega)]

/-- R95 L3: a round key between them is carried through `InvMixColumns`. -/
theorem addRoundKey_decryptOrder_inner (s : Block) (e : Schedule) {nr r : Nat} (hr : 0 < r ∧ r < nr) (hnr : nr ≤ 14) :
    addRoundKey (invMixColumns s) (decryptOrder e nr) r = invMixColumns (addRoundKey s e (nr - r)) :=
  block_ext_words fun c hc => by
    rw [wordsOf_addRoundKey_getElem, wordsOf_invMixColumns_getElem, wordsOf_invMixColumns_getElem,
      wordsOf_addRoundKey_getElem, invMixWord_xor, scheduleWord_of_lt _ _ (by omega),
      decryptOrder_roundKey e (by omega) hc (by omega), decryptWord, if_pos hr]

/-! ### The ciphers undo each other (R95 L4, L5) -/

theorem invShiftRows_invSubBytes_cancel (s : Block) : invShiftRows (invSubBytes (shiftRows (subBytes s))) = s := by
  rw [← invSubBytes_invShiftRows, invShiftRows_shiftRows, invSubBytes_subBytes]

theorem shiftRows_subBytes_cancel (s : Block) : shiftRows (subBytes (invShiftRows (invSubBytes s))) = s := by
  rw [← invSubBytes_invShiftRows, subBytes_invSubBytes, shiftRows_invShiftRows]

/-- R95 L4: `i` full inverse rounds on a ciphertext of `i + j + 1` rounds lead back to the state after `j` full rounds, taken
through `SubBytes` and `ShiftRows`. -/
theorem eqInvCipherState_cipher (b : Block) (e : Schedule) {nr i j : Nat} (hij : i + j + 1 = nr) (hnr : nr ≤ 14) :
    eqInvCipherState (cipher b e nr) (decryptOrder e nr) i = shiftRows (subBytes (cipherState b e j)) := by
  induction i generalizing j with
  | zero =>
    rw [eqInvCipherState, addRoundKey_decryptOrder_outer _ e (.inl rfl) hnr, cipher, show nr - 1 = j by omega, Nat.sub_zero,
      addRoundKey_addRoundKey]
  | succ i ih =>
    rw [eqInvCipherState, ih (j := j + 1) (by omega), invShiftRows_invSubBytes_cancel,
      addRoundKey_decryptOrder_inner _ e (by omega) hnr, show nr - (i + 1) = j + 1 by omega, cipherState,
      addRoundKey_addRoundKey, invMixColumns_mixColumns]

/-- R95 L4. -/
theorem eqInvCipher_cipher (b : Block) (e : Schedule) {nr : Nat} (hpos : 0 < nr) (hnr : nr ≤ 14) :
    eqInvCipher (cipher b e nr) (decryptOrder e nr) nr = b := by
  rw [eqInvCipher, eqInvCipherState_cipher b e (j := 0) (by omega) hnr, invShiftRows_invSubBytes_cancel,
    addRoundKey_decryptOrder_outer _ e (.inr rfl) hnr, Nat.sub_self, cipherState, addRoundKey_addRoundKey]

/-- R95 L5: the same with the two ciphers in each other's place: each round that `Cipher` adds takes one inverse round off. -/
theorem cipherState_eqInvCipher (b : Block) (e : Schedule) {nr i j : Nat} (hij : i + j + 1 = nr) (hnr : nr ≤ 14) :
    cipherState (eqInvCipher b (decryptOrder e nr) nr) e i =
      invShiftRows (invSubBytes (eqInvCipherState b (decryptOrder e nr) j)) := by
  induction i generalizing j with
  | zero =>
    rw [cipherState, eqInvCipher, show nr - 1 = j by omega, addRoundKey_decryptOrder_outer _ e (.inr rfl) hnr, Nat.sub_self,
      addRoundKey_addRoundKey]
  | succ i ih =>
    rw [cipherState, ih (j := j + 1) (by omega), shiftRows_subBytes_cancel, eqInvCipherState,
      addRoundKey_decryptOrder_inner _ e (by omega) hnr, mixColumns_invMixColumns, show nr - (j + 1) = i + 1 by omega,
      addRoundKey_addRoundKey]

/-- R95 L5. -/
theorem cipher_eqInvCipher (b : Block) (e : Schedule) {nr : Nat} (hpos : 0 < nr) (hnr : nr ≤ 14) :
    cipher (eqInvCipher b (decryptOrder e nr) nr) e nr = b := by
  rw [cipher, cipherState_eqInvCipher b e (j := 0) (by omega) hnr, shiftRows_subBytes_cancel, eqInvCipherState,
    addRoundKey_decryptOrder_outer _ e (.inl rfl) hnr, Nat.sub_zero, addRoundKey_addRoundKey]

/-- Settles O57: each round transformation is undone by its partner; the ciphers by induction over the rounds, for every
schedule of 1 to 14 rounds and the same schedule in decryption order. -/
theorem aesLaws : Obligations.AesLaws := by
  refine ⟨fun s => ⟨invSubBytes_subBytes s, invShiftRows_shiftRows s, invMixColumns_mixColumns s⟩, addRoundKey_addRoundKey,
    invMixColumns_xor, fun s w r c hr hc => ?_, fun k nk b hnk _ => ?_⟩
  · rw [wordsOf_invMixColumns_getElem, wordsOf_addRoundKey_getElem, invMixWord_xor, wordsOf_invMixColumns_getElem,
      scheduleWord_of_lt]
  · exact ⟨eqInvCipher_cipher b _ (nr := nk + 6) (by omega) (by omega),
      cipher_eqInvCipher b _ (nr := nk + 6) (by omega) (by omega)⟩

end Sys2Proof.Machine
end

section
/-! SUPPORT. Proofs of the statements on the key commands (41_key_expand.md R100 to R102): each command is the shared key command
with its own expansion and order, and `klen` alone says which branch it takes. -/

namespace Sys2Proof.Machine

/-! ### The two branches of a key command, field by field -/

theorem exec_kexpE (klen : BitVec 8) (s : State) : exec (.kexpE klen) s = .next (keyCommand expandEnc false klen s) := rfl

theorem exec_kexpD (klen : BitVec 8) (s : State) : exec (.kexpD klen) s = .next (keyCommand expandDec true klen s) := rfl

/-- R100, R101: with a legal `klen` the slot is replaced as a whole. -/
theorem keyCommand_of_legal (expand : List Byte → Nat → Schedule) (order : Bool) {klen : BitVec 8} (s : State)
    (h : klen = 16 ∨ klen = 24 ∨ klen = 32) : keyCommand expand order klen s =
      { s with rk := expand (keyBytes s.key klen.toNat) (klen.toNat / 4), nr := BitVec.ofNat 4 (klen.toNat / 4 + 6),
               kdir := order, kvalid := true } :=
  keyCommand_legal ((legalKeyLength_iff klen).2 h)

/-- R102: with any other `klen` the slot is emptied, whatever the command. -/
theorem keyCommand_of_illegal (expand : List Byte → Nat → Schedule) (order : Bool) {klen : BitVec 8} (s : State)
    (h : ¬ (klen = 16 ∨ klen = 24 ∨ klen = 32)) : keyCommand expand order klen s =
      { s with err := s.err ||| 0b0001#4, rk := Vector.replicate 60 0, kvalid := false, kdir := false, nr := 0 } :=
  keyCommand_illegal (by rwa [← legalKeyLength_iff, Bool.not_eq_true] at h)

/-! ### A command and a read of `STATUS`, the run of the worked examples -/

theorem run_command_then_readStatus {s t : State} {v : Word} {c : Instr} (hp : s.pending = [.wr 0 v, .rd 1])
    (hd : decode v = .command c) (h : exec c (s.setPending [.rd 1]) = .next t) :
    core.run 2 s = .next ((t.setPending []).giveBack t.status) := by
  have hread : t.pending = [.rd 1] := (exec_host_lists h).1
  rw [run_succ 1 ((step_command hp rfl hd).trans h), run_succ 0 (step_read_status hread rfl), run_zero]

/-! ### The obligations -/

/-- Settles O21: the two branches of the shared key command; the word is that of `encode`; the worked values by running the
expansion. -/
theorem keyExpandEncryptResult : Obligations.KeyExpandEncryptResult := by
  refine ⟨fun klen s h => ?_, fun klen s h => ?_, fun klen => decode_encode (.kexpE klen),
    _, run_command_then_readStatus rfl (decode_encode (.kexpE 16)) (exec_kexpE 16 _), ?_⟩
  · rw [exec_kexpE, keyCommand_of_legal _ _ _ h]
  · rw [exec_kexpE, keyCommand_of_illegal _ _ _ h]
  · decide +kernel

/-- Settles O22: the same two branches with the other expansion and the other order; the worked values by running it. -/
theorem keyExpandDecryptResult : Obligations.KeyExpandDecryptResult := by
  refine ⟨fun klen s h => ?_, fun klen s h => ?_, fun klen => decode_encode (.kexpD klen),
    _, run_command_then_readStatus rfl (decode_encode (.kexpD 16)) (exec_kexpD 16 _), ?_⟩
  · rw [exec_kexpD, keyCommand_of_legal _ _ _ h]
  · rw [exec_kexpD, keyCommand_of_illegal _ _ _ h]
  · decide +kernel

/-- Settles O23: the failing branch does not depend on the command, and the other one ends with `KVALID` set. -/
theorem keyCommandBadLength : Obligations.KeyCommandBadLength := by
  refine ⟨fun klen i s hi h16 h24 h32 => ?_, fun klen s h => ?_, ?_⟩
  · have hillegal : ¬ (klen = 16 ∨ klen = 24 ∨ klen = 32) := not_or.2 ⟨h16, not_or.2 ⟨h24, h32⟩⟩
    rcases hi with rfl | rfl
    · rw [exec_kexpE, keyCommand_of_illegal _ _ _ hillegal]
    · rw [exec_kexpD, keyCommand_of_illegal _ _ _ hillegal]
  · exact ⟨_, _, exec_kexpE klen s, by rw [keyCommand_of_legal _ _ _ h], exec_kexpD klen s,
      by rw [keyCommand_of_legal _ _ _ h]⟩
  · exact run_command_then_readStatus rfl (decode_encode (.kexpE 17)) (exec_kexpE 17 _)

end Sys2Proof.Machine
end

section
/-! SUPPORT. Proofs of the statements on `ENC` and on what it shares with `DEC` (42_encrypt_block.md R110, R111;
43_decrypt_block.md R116): each is the shared block command with its own block function and order, and the tags of the slot
alone say which branch it takes. -/

namespace Sys2Proof.Machine

/-! ### The two branches of a block command, field by field -/

theorem exec_enc (s : State) : exec .enc s = .next (blockCommand cipher false s) := rfl

theorem exec_dec (s : State) : exec .dec s = .next (blockCommand eqInvCipher true s) := rfl

/-- R110, R115: with a schedule of its order, only `DOUT` and `DVALID` are written. -/
theorem blockCommand_of_schedule (run : Block → Schedule → Nat → Block) {order : Bool} {s : State}
    (hkv : s.kvalid = true) (hkd : s.kdir = order) : blockCommand run order s =
      { s with dout := wordsOf (run (blockOf s.din) s.rk s.nr.toNat), dvalid := true } :=
  blockCommand_ready ((State.holdsSchedule_iff order s).2 ⟨hkv, hkd⟩)

/-- R111, R116: without one, the failure is the same whatever the command. -/
theorem blockCommand_of_noSchedule (run : Block → Schedule → Nat → Block) {order : Bool} {s : State}
    (h : ¬ (s.kvalid = true ∧ s.kdir = order)) : blockCommand run order s =
      { s with err := s.err ||| 0b0010#4, dout := Vector.replicate 4 0, dvalid := false } :=
  blockCommand_notReady (by rwa [← State.holdsSchedule_iff, Bool.not_eq_true] at h)

/-- R111, R116: the two ways the slot lacks a schedule of the order needed: it is empty, or holds one of the other order. -/
theorem State.noSchedule_of_empty_or_otherOrder {s : State} {order : Bool} (h : s.kvalid = false ∨ s.kdir = !order) :
    ¬ (s.kvalid = true ∧ s.kdir = order) := by
  rintro ⟨hkv, hkd⟩
  rcases h with hempty | hother
  · simp [hkv] at hempty
  · simp [hkd] at hother

/-! ### Two commands and a read of `STATUS`, the run of the worked examples -/

theorem run_two_commands_then_readStatus {s t u : State} {v w : Word} {c d : Instr}
    (hp : s.pending = [.wr 0 v, .wr 0 w, .rd 1]) (hv : decode v = .command c) (hw : decode w = .command d)
    (hc : exec c (s.setPending [.wr 0 w, .rd 1]) = .next t) (hd : exec d (t.setPending [.rd 1]) = .next u) :
    core.run 3 s = .next ((u.setPending []).giveBack u.status) := by
  have hrest : t.pending = [.wr 0 w, .rd 1] := (exec_host_lists hc).1
  rw [run_succ 2 ((step_command hp rfl hv).trans hc), run_command_then_readStatus hrest hw hd]

/-! ### The obligations -/

/-- Settles O27: the failing branch of the shared block command, once for each order. -/
theorem blockCommandWithoutSchedule : Obligations.BlockCommandWithoutSchedule := by
  refine ⟨fun s h => ?_, fun s h => ?_⟩
  · rw [exec_enc, blockCommand_of_noSchedule cipher (State.noSchedule_of_empty_or_otherOrder h)]
  · rw [exec_dec, blockCommand_of_noSchedule eqInvCipher (State.noSchedule_of_empty_or_otherOrder h)]

/-- Settles O25: the two branches of the shared block command; the word is that of `encode`; the worked values by running the
key expansion and the cipher. -/
theorem encryptBlockResult : Obligations.EncryptBlockResult := by
  refine ⟨fun s hkv hkd => ?_, fun s h => ?_, decode_encode .enc,
    _, run_two_commands_then_readStatus rfl (decode_encode (.kexpE 16)) (decode_encode .enc) (exec_kexpE 16 _)
      (exec_enc _), ?_⟩
  · rw [exec_enc, blockCommand_of_schedule cipher hkv hkd]
  · rw [exec_enc, blockCommand_of_noSchedule cipher h]
  · decide +kernel

end Sys2Proof.Machine
end

section
/-! SUPPORT. Proof of the statement on `DEC` (43_decrypt_block.md R115): the shared block command with the inverse cipher and
decryption order. -/

namespace Sys2Proof.Machine

/-- Settles O26: the two branches of the shared block command; the word is that of `encode`; the worked values, those inside
the first round included, by running the key expansion and the inverse cipher. -/
theorem decryptBlockResult : Obligations.DecryptBlockResult := by
  refine ⟨fun s hkv hkd => ?_, fun s h => ?_, decode_encode .dec,
    ⟨_, run_two_commands_then_readStatus rfl (decode_encode (.kexpD 16)) (decode_encode .dec) (exec_kexpD 16 _)
      (exec_dec _), ?_⟩, ?_⟩
  · rw [exec_dec, blockCommand_of_schedule eqInvCipher hkv hkd]
  · rw [exec_dec, blockCommand_of_noSchedule eqInvCipher h]
  · decide +kernel
  · decide +kernel

end Sys2Proof.Machine
end

section
/-! SUPPORT. Proofs of the statements on `WIPE` (44_wipe.md R120, R121): it leaves the reset state with the error latch and
the host's lists of the state before; a key command on a zero `KEY` expands the zero key; no other command writes `KEY` or
`DIN`. -/

namespace Sys2Proof.Machine

/-! ### The state `WIPE` leaves (R120, R121) -/

/-- R120: `WIPE` is its three named updates. -/
theorem exec_wipe (s : State) : exec .wipe s = .next s.clearOperands.clearResult.clearSchedule := rfl

/-- R121 item 1: every field but `ERR` and the host's lists takes its reset value. -/
theorem exec_wipe_eq_reset (s : State) :
    exec .wipe s = .next { State.reset with err := s.err, pending := s.pending, returned := s.returned } := rfl

/-- R121 item 2: a second `WIPE` finds `ERR` and the lists as the first one left them. -/
theorem exec_wipe_again {s t : State} (h : exec .wipe s = .next t) : exec .wipe t = .next t := by
  rw [exec_wipe_eq_reset] at h ⊢
  cases h
  rfl

theorem exec_wipe_key {s t : State} (h : exec .wipe s = .next t) : t.key = Vector.replicate 8 0 := by
  rw [exec_wipe] at h
  cases h
  rfl

/-! ### `STATUS` with an empty slot and no result (R27) -/

/-- R27: with both tags of the slot, `NR` and `DVALID` zero, `STATUS` shows the error latch alone. -/
theorem State.status_eq_err {s : State} (hkv : s.kvalid = false) (hkd : s.kdir = false) (hnr : s.nr = 0)
    (hdv : s.dvalid = false) : s.status = s.err.setWidth 32 <<< 16 := by
  simp [State.status, hkv, hkd, hnr, hdv]

/-! ### The bytes of a zero register file (R19) -/

theorem wordBytes_zero : wordBytes 0 = List.replicate 4 0 := by decide

theorem fileBytes_replicate_zero (m n : Nat) : fileBytes (List.replicate m 0) n = List.replicate (min n (m * 4)) 0 := by
  rw [fileBytes, List.flatMap_replicate, wordBytes_zero, List.flatten_replicate_replicate, List.take_replicate]

/-- R121 item 4: every key string of a zero `KEY` is zero. -/
theorem keyBytes_replicate_zero {n : Nat} (h : n ≤ 32) : keyBytes (Vector.replicate 8 0) n = List.replicate n 0 := by
  rw [keyBytes, Vector.toList_replicate, fileBytes_replicate_zero, Nat.min_eq_left h]

/-- R121 item 4: with `KEY` zero, a key command with a legal `klen` expands the zero key. -/
theorem keyCommand_of_zeroKey (expand : List Byte → Nat → Schedule) (order : Bool) {klen : BitVec 8} {s : State}
    (hkey : s.key = Vector.replicate 8 0) (h : klen = 16 ∨ klen = 24 ∨ klen = 32) : keyCommand expand order klen s =
      { s with rk := expand (List.replicate klen.toNat 0) (klen.toNat / 4), nr := BitVec.ofNat 4 (klen.toNat / 4 + 6),
               kdir := order, kvalid := true } := by
  have hlen : klen.toNat ≤ 32 := by rcases h with rfl | rfl | rfl <;> decide
  rw [keyCommand_of_legal expand order s h, hkey, keyBytes_replicate_zero hlen]

/-! ### Who writes the operand registers (R121 item 5) -/

theorem keyCommand_keepsOperands (expand : List Byte → Nat → Schedule) (order : Bool) (klen : BitVec 8) (s : State) :
    (keyCommand expand order klen s).key = s.key ∧ (keyCommand expand order klen s).din = s.din := by
  rcases keyCommand_cases expand order klen s with ⟨-, e⟩ | ⟨-, e⟩ <;> rw [e] <;> exact ⟨rfl, rfl⟩

theorem blockCommand_keepsOperands (run : Block → Schedule → Nat → Block) (order : Bool) (s : State) :
    (blockCommand run order s).key = s.key ∧ (blockCommand run order s).din = s.din := by
  rcases blockCommand_cases run order s with ⟨-, e⟩ | ⟨-, e⟩ <;> rw [e] <;> exact ⟨rfl, rfl⟩

/-- R121 item 5: no command but `WIPE` writes `KEY` or `DIN`. -/
theorem exec_keepsOperands {i : Instr} {s t : State} (hi : i ≠ .wipe) (h : exec i s = .next t) :
    t.key = s.key ∧ t.din = s.din := by
  rcases exec_cases h with ⟨klen, -, rfl⟩ | ⟨klen, -, rfl⟩ | ⟨-, rfl⟩ | ⟨-, rfl⟩ | ⟨hwipe, -⟩
  · exact keyCommand_keepsOperands expandEnc false klen s
  · exact keyCommand_keepsOperands expandDec true klen s
  · exact blockCommand_keepsOperands cipher false s
  · exact blockCommand_keepsOperands eqInvCipher true s
  · exact absurd hwipe hi

/-! ### The obligations -/

/-- Settles O30: `WIPE` against reset and against itself; a key command on a zero `KEY`; the other four commands by
their shared operations. -/
theorem wipeCornerCases : Obligations.WipeCornerCases := by
  refine ⟨exec_wipe_eq_reset, fun s herr => exec_wipe_eq_resetCore herr, fun s t h => exec_wipe_again h,
    fun s t klen h hlegal => ?_, fun i s t hi h => exec_keepsOperands hi h⟩
  have hkey : t.key = Vector.replicate 8 0 := exec_wipe_key h
  rw [exec_kexpE, exec_kexpD, keyCommand_of_zeroKey _ _ hkey hlegal, keyCommand_of_zeroKey _ _ hkey hlegal]
  exact ⟨rfl, rfl⟩

/-- Settles O29: the named updates of `WIPE` field by field; the word is that of `encode`; `ENC` finds the slot empty and
latches `ERR.NOKEY` alone. -/
theorem wipeResult : Obligations.WipeResult := by
  refine ⟨exec_wipe, decode_encode .wipe, fun s herr => ⟨_, _, exec_wipe s, State.status_eq_zero rfl rfl rfl rfl herr,
    blockCommandWithoutSchedule.1 _ (.inl rfl), ?_⟩⟩
  rw [State.status_eq_err rfl rfl rfl rfl]
  simp [herr]

end Sys2Proof.Machine
end

section
/-! SUPPORT. Proofs of the statements on the error latch (60_exceptions.md R125, R131, R132): the one cause an event can raise,
as a function of the state (R135); a run without a reset keeps what the latch holds; and nothing but `STATUS` reads it. -/

namespace Sys2Proof.Machine

/-! ### The cause an event raises (R135) -/

/-- R127 to R129: the cause a word written to `CMD` raises: the decode, then the command's own check. -/
def decodedCause (d : Decoded) (s : State) : Option Cause :=
  match d with
  | .command (.kexpE klen) => if legalKeyLength klen then none else some .invalidKeyLength
  | .command (.kexpD klen) => if legalKeyLength klen then none else some .invalidKeyLength
  | .command .enc => if s.holdsSchedule false then none else some .noSchedule
  | .command .dec => if s.holdsSchedule true then none else some .noSchedule
  | .command .wipe => none
  | .illegal _ => some .illegalCommand

/-- R130, R135: the cause of a `WR`: the window map, then the word. -/
def writeCause (i : BitVec 6) (v : Word) (s : State) : Option Cause :=
  match writeTarget i with
  | .command => decodedCause (decode v) s
  | .key _ => none
  | .din _ => none
  | .notPermitted => some .accessError

/-- R130: the cause of a `RD`. -/
def readCause (i : BitVec 6) : Option Cause :=
  match readTarget i with
  | .status => none
  | .din _ => none
  | .dout _ => none
  | .notPermitted => some .accessError

/-- R135: the cause the next event raises, if any. -/
def State.cause (s : State) : Option Cause :=
  match s.pending with
  | .wr i v :: _ => writeCause i v s
  | .rd i :: _ => readCause i
  | .reset :: _ => none
  | [] => none

/-- The bits of `ERR` that an event with this cause sets. -/
def causeBits (o : Option Cause) : BitVec 4 := o.elim 0 Cause.bit

@[simp] theorem causeBits_none : causeBits none = 0 := rfl

@[simp] theorem causeBits_some (c : Cause) : causeBits (some c) = c.bit := rfl

theorem Cause.code_injective : Function.Injective Cause.code := by
  intro c d h
  cases c <;> cases d <;> simp [Cause.code] at h ⊢

theorem causeBits_getLsbD_code (o : Option Cause) (c : Cause) : (causeBits o).getLsbD c.code = true ↔ o = some c := by
  cases o with
  | none => simp
  | some d => simp [Cause.code_injective.eq_iff, eq_comm]

/-! ### What a step leaves in the latch (R126) -/

/-- R127: a key command latches its failure alone. -/
theorem keyCommand_err (expand : List Byte → Nat → Schedule) (order : Bool) (klen : BitVec 8) (s : State) :
    (keyCommand expand order klen s).err =
      s.err ||| causeBits (if legalKeyLength klen then none else some .invalidKeyLength) := by
  rcases keyCommand_cases expand order klen s with ⟨h, e⟩ | ⟨h, e⟩ <;> simp [e, h, failKeyCommand]

/-- R128: a block command latches its failure alone. -/
theorem blockCommand_err (run : Block → Schedule → Nat → Block) (order : Bool) (s : State) :
    (blockCommand run order s).err = s.err ||| causeBits (if s.holdsSchedule order then none else some .noSchedule) := by
  rcases blockCommand_cases run order s with ⟨h, e⟩ | ⟨h, e⟩ <;> simp [e, h, failBlockCommand]

/-- R126: a command sets the bit of its cause and no other. -/
theorem exec_err_eq {i : Instr} {s t : State} (h : exec i s = .next t) :
    t.err = s.err ||| causeBits (decodedCause (.command i) s) := by
  rcases exec_cases h with ⟨klen, rfl, rfl⟩ | ⟨klen, rfl, rfl⟩ | ⟨rfl, rfl⟩ | ⟨rfl, rfl⟩ | ⟨rfl, rfl⟩
  · exact keyCommand_err expandEnc false klen s
  · exact keyCommand_err expandDec true klen s
  · exact blockCommand_err cipher false s
  · exact blockCommand_err eqInvCipher true s
  · simp [decodedCause]

theorem readSlot_err (i : BitVec 6) (s : State) : (readSlot i s).err = s.err ||| causeBits (readCause i) := by
  unfold readSlot readEffect readCause
  cases readTarget i <;> simp

theorem readSlot_pending (i : BitVec 6) (s : State) : (readSlot i s).pending = s.pending := by
  unfold readSlot readEffect
  cases readTarget i <;> rfl

/-- R126, R135: a step other than a reset sets the bit of its cause and no other. -/
theorem step_err_eq {s t : State} (h : step s = .next t) (hr : ∀ rest, s.pending ≠ .reset :: rest) :
    t.err = s.err ||| causeBits s.cause := by
  rcases step_cases h with ⟨hp, rfl⟩ | ⟨rest, hp, -⟩ | ⟨i, rest, hp, rfl⟩ | ⟨i, v, rest, hp, hwrite⟩
  · simp [State.cause, hp]
  · exact absurd hp (hr rest)
  · simp [State.cause, hp, readSlot_err]
  · have hcause : s.cause = writeCause i v s := by simp [State.cause, hp]
    rw [hcause, writeCause]
    rcases hwrite with ⟨hi, c, hd, hexec⟩ | ⟨hi, r, hd, rfl⟩ | ⟨j, hj, rfl⟩ | ⟨j, hj, rfl⟩ | ⟨h0, h1, rfl⟩
    · rw [writeTarget_command hi, hd]
      exact exec_err_eq (s := s.setPending rest) hexec
    · simp [writeTarget_command hi, hd, decodedCause]
    · simp [writeTarget_key j hj]
    · simp [writeTarget_din j hj]
    · simp [writeTarget_notPermitted h0 h1]

/-- R125: the bit of a cause is set after a step exactly if it was set before or the step raises the cause. -/
theorem step_errBit_iff {s t : State} (h : step s = .next t) (hr : ∀ rest, s.pending ≠ .reset :: rest) (c : Cause) :
    t.errBit c = true ↔ s.errBit c = true ∨ s.cause = some c := by
  rw [State.errBit, step_err_eq h hr, BitVec.getLsbD_or, Bool.or_eq_true, causeBits_getLsbD_code, State.errBit]

/-! ### Each cause spelled out (R125) -/

/-- R127: the key commands whose `klen` is not legal. -/
theorem decodedCause_eq_invalidKeyLength_iff (d : Decoded) (s : State) : decodedCause d s = some .invalidKeyLength ↔
    ∃ klen, (d = .command (.kexpE klen) ∨ d = .command (.kexpD klen)) ∧ klen ≠ 16 ∧ klen ≠ 24 ∧ klen ≠ 32 := by
  rcases d with ⟨_ | _ | _ | _ | _⟩ | _ <;> simp [decodedCause, legalKeyLength, and_assoc]

/-- R128: the block commands without a schedule of their order. -/
theorem decodedCause_eq_noSchedule_iff (d : Decoded) (s : State) : decodedCause d s = some .noSchedule ↔
    (d = .command .enc ∧ (s.kvalid = false ∨ s.kdir = true)) ∨
    (d = .command .dec ∧ (s.kvalid = false ∨ s.kdir = false)) := by
  rcases d with ⟨_ | _ | _ | _ | _⟩ | _ <;> simp [decodedCause, State.holdsSchedule, or_iff_not_imp_left]

/-- R129: the illegal command words. -/
theorem decodedCause_eq_illegalCommand_iff (d : Decoded) (s : State) : decodedCause d s = some .illegalCommand ↔
    ∃ r, d = .illegal r := by
  rcases d with ⟨_ | _ | _ | _ | _⟩ | _ <;> simp [decodedCause]

/-- R135: a `WR` to `CMD` is always a permitted access. -/
theorem decodedCause_ne_accessError (d : Decoded) (s : State) : decodedCause d s ≠ some .accessError := by
  rcases d with ⟨_ | _ | _ | _ | _⟩ | _ <;> simp [decodedCause]

/-- R42, R47: the slots a `WR` may not go to. -/
theorem writeTarget_eq_notPermitted_iff (i : BitVec 6) : writeTarget i = .notPermitted ↔
    i.toNat = 1 ∨ i.toNat = 2 ∨ i.toNat = 3 ∨ 16 ≤ i.toNat := by
  rcases writeTarget_cases i with ⟨hi, e⟩ | ⟨j, hj, e⟩ | ⟨j, hj, e⟩ | ⟨h0, h1, e⟩ <;> simp [e] <;> omega

/-- R42, R47: the slots a `RD` may not go to. -/
theorem readTarget_eq_notPermitted_iff (i : BitVec 6) : readTarget i = .notPermitted ↔
    i.toNat = 0 ∨ i.toNat = 2 ∨ i.toNat = 3 ∨ (4 ≤ i.toNat ∧ i.toNat ≤ 11) ∨ 20 ≤ i.toNat := by
  rcases readTarget_cases i with ⟨hi, e⟩ | ⟨j, hj, e⟩ | ⟨j, hj, e⟩ | ⟨h0, h1, e⟩ <;> simp [e] <;> omega

theorem writeTarget_eq_command_iff (i : BitVec 6) : writeTarget i = .command ↔ i = 0 := by
  rw [← BitVec.toNat_inj]
  rcases writeTarget_cases i with ⟨hi, e⟩ | ⟨j, hj, e⟩ | ⟨j, hj, e⟩ | ⟨h0, h1, e⟩ <;> simp [e] <;> omega

theorem writeCause_eq_some_iff (i : BitVec 6) (v : Word) (s : State) (c : Cause) : writeCause i v s = some c ↔
    (i = 0 ∧ decodedCause (decode v) s = some c) ∨ (c = .accessError ∧ writeTarget i = .notPermitted) := by
  rw [← writeTarget_eq_command_iff, writeCause]
  cases writeTarget i <;> simp [eq_comm]

theorem readCause_eq_some_iff (i : BitVec 6) (c : Cause) : readCause i = some c ↔
    c = .accessError ∧ readTarget i = .notPermitted := by
  rw [readCause]
  cases readTarget i <;> simp [eq_comm]

/-- R135: an event raises a cause through a word written to `CMD`, or else by the access itself. -/
theorem State.cause_eq_some_iff (s : State) (c : Cause) : s.cause = some c ↔
    (∃ v rest, s.pending = .wr 0 v :: rest ∧ decodedCause (decode v) s = some c) ∨
    (c = .accessError ∧ ((∃ i v rest, s.pending = .wr i v :: rest ∧ writeTarget i = .notPermitted) ∨
      ∃ i rest, s.pending = .rd i :: rest ∧ readTarget i = .notPermitted)) := by
  rcases hp : s.pending with _ | ⟨⟨i, v⟩ | i | _, rest⟩
  · simp [State.cause, hp]
  · simp [State.cause, hp, writeCause_eq_some_iff, and_assoc]
  · simp [State.cause, hp, readCause_eq_some_iff]
  · simp [State.cause, hp]

/-- R125: `ERR` bit `n` is `STATUS` bit `16 + n`. -/
theorem State.status_getLsbD_err (s : State) {n : Nat} (hn : n < 4) : s.status.getLsbD (16 + n) = s.err.getLsbD n := by
  interval_cases n <;> simp [State.status]

/-- Settles O34: a step adds the bit of its cause to the latch, and each cause is the one the statement spells out. -/
theorem errorCausesExact : Obligations.ErrorCausesExact := by
  refine ⟨fun s t h hr => ?_, fun s n hn => State.status_getLsbD_err s hn⟩
  have hbit := step_errBit_iff h hr
  refine ⟨(hbit .invalidKeyLength).trans (or_congr_right ?_), (hbit .noSchedule).trans (or_congr_right ?_),
    (hbit .illegalCommand).trans (or_congr_right ?_), (hbit .accessError).trans (or_congr_right ?_)⟩
  · simp [State.cause_eq_some_iff, decodedCause_eq_invalidKeyLength_iff]
  · simp [State.cause_eq_some_iff, decodedCause_eq_noSchedule_iff]
  · simp [State.cause_eq_some_iff, decodedCause_eq_illegalCommand_iff]
  · simp [State.cause_eq_some_iff, decodedCause_ne_accessError, writeTarget_eq_notPermitted_iff,
      readTarget_eq_notPermitted_iff]

/-! ### The latch is sticky (R131) -/

/-- R13, R50: a step takes the oldest pending event, and leaves the others. -/
theorem step_pending {s t : State} (h : step s = .next t) : t.pending = s.pending.tail := by
  rcases step_cases h with ⟨hp, rfl⟩ | ⟨rest, hp, rfl⟩ | ⟨i, rest, hp, rfl⟩ | ⟨i, v, rest, hp, hwrite⟩
  · simp [hp]
  · simp [hp]
  · simp [hp, readSlot_pending]
  · rw [hp, List.tail_cons]
    rcases hwrite with ⟨-, c, -, hexec⟩ | ⟨-, r, -, rfl⟩ | ⟨j, -, rfl⟩ | ⟨j, -, rfl⟩ | ⟨-, -, rfl⟩
    · exact (exec_host_lists hexec).1
    all_goals rfl

/-- R126: what an event sets is added to what the latch held. -/
theorem err_getLsbD_mono {s t : State} {m : BitVec 4} (h : t.err = s.err ||| m) {n : Nat}
    (hn : s.err.getLsbD n = true) : t.err.getLsbD n = true := by
  rw [h, BitVec.getLsbD_or, hn, Bool.true_or]

/-- R131: a step other than a reset that ends with no error latched began with none. -/
theorem clean_of_step_clean {s t : State} (h : step s = .next t) (hr : ∀ rest, s.pending ≠ .reset :: rest)
    (ht : t.clean) : s.clean :=
  (BitVec.or_eq_zero_iff.1 ((step_err_eq h hr).symm.trans ht)).1

/-- A run of one step or more is a step and the run of the others. -/
theorem run_succ_inv {k : Nat} {s t : State} (h : core.run (k + 1) s = .next t) :
    ∃ u : State, step s = .next u ∧ core.run k u = .next t := by
  cases hs : core.step s <;> simp only [Host.Core.run, hs, reduceCtorEq] at h
  exact ⟨_, hs, h⟩

/-- R131: every point of a run without a reset that ends with no error latched has none, by induction on the steps. -/
theorem run_clean_throughout {k : Nat} {s t : State} (hr : .reset ∉ s.pending.take k) (h : core.run k s = .next t)
    (ht : t.clean) : ∀ j ≤ k, ∃ u : State, core.run j s = .next u ∧ u.clean := by
  induction k generalizing s with
  | zero =>
    rintro j hj
    obtain rfl := Nat.le_zero.1 hj
    exact ⟨t, h, ht⟩
  | succ k ih =>
    obtain ⟨u, hstep, hrun⟩ := run_succ_inv h
    have hhead : ∀ rest, s.pending ≠ .reset :: rest := fun rest hp => hr (by simp [hp])
    have hpending : u.pending.take k = (s.pending.take (k + 1)).tail := by
      rw [step_pending hstep, List.tail_take_eq_take_tail, Nat.add_sub_cancel]
    have htail : .reset ∉ u.pending.take k := fun hmem => hr (List.mem_of_mem_tail (hpending ▸ hmem))
    have hlater := ih htail hrun
    rintro (_ | j) hj
    · obtain ⟨_, hu, hclean⟩ := hlater 0 (Nat.zero_le k)
      cases hu
      exact ⟨s, rfl, clean_of_step_clean hstep hhead hclean⟩
    · rw [run_succ j hstep]
      exact hlater j (Nat.le_of_succ_le_succ hj)

/-- Settles O36: a command and a step other than a reset only add bits to `ERR`, so a clean end was clean throughout. -/
theorem errorBitsSticky : Obligations.ErrorBitsSticky := by
  refine ⟨fun s t h hr n => err_getLsbD_mono (step_err_eq h hr), fun i s t h n => err_getLsbD_mono (exec_err_eq h),
    fun s rest hp => ⟨_, step_reset hp, rfl⟩, fun s t h => ?_,
    fun s v rest hp => step_write_notPermitted hp (by decide) (by decide), fun k s t hr h ht => run_clean_throughout hr h ht⟩
  cases (exec_wipe s).symm.trans h
  rfl

/-! ### The latch blocks nothing (R132) -/

/-- R132: the state with these `ERR` bits set besides. -/
def State.latch (m : BitVec 4) (s : State) : State := { s with err := s.err ||| m }

/-- R126: raising sets one bit more, in either order. -/
theorem State.raise_latch (c : Cause) (m : BitVec 4) (s : State) : (s.latch m).raise c = (s.raise c).latch m := by
  simp only [State.raise, State.latch, BitVec.or_assoc, BitVec.or_comm m]

theorem keyCommand_latch (expand : List Byte → Nat → Schedule) (order : Bool) (klen : BitVec 8) (m : BitVec 4) (s : State) :
    keyCommand expand order klen (s.latch m) = (keyCommand expand order klen s).latch m := by
  cases h : legalKeyLength klen
  · rw [keyCommand_illegal h, keyCommand_illegal h]
    exact State.raise_latch .invalidKeyLength m s.clearSchedule
  · rw [keyCommand_legal h, keyCommand_legal h]
    rfl

theorem blockCommand_latch (run : Block → Schedule → Nat → Block) (order : Bool) (m : BitVec 4) (s : State) :
    blockCommand run order (s.latch m) = (blockCommand run order s).latch m := by
  cases h : s.holdsSchedule order
  · rw [blockCommand_notReady h, blockCommand_notReady (s := s.latch m) h]
    exact State.raise_latch .noSchedule m s.clearResult
  · rw [blockCommand_ready h, blockCommand_ready (s := s.latch m) h]
    rfl

/-- R132: no command reads the latch. -/
theorem exec_latch {i : Instr} {s t : State} (h : exec i s = .next t) (m : BitVec 4) :
    exec i (s.latch m) = .next (t.latch m) := by
  rcases exec_cases h with ⟨klen, rfl, rfl⟩ | ⟨klen, rfl, rfl⟩ | ⟨rfl, rfl⟩ | ⟨rfl, rfl⟩ | ⟨rfl, rfl⟩
  · rw [exec_kexpE, keyCommand_latch]
  · rw [exec_kexpD, keyCommand_latch]
  · rw [exec_enc, blockCommand_latch]
  · rw [exec_dec, blockCommand_latch]
  · rfl

/-- R46, R132: no `RD` but that of `STATUS` reads the latch. -/
theorem readSlot_latch {i : BitVec 6} (hi : i.toNat ≠ 1) (m : BitVec 4) (s : State) :
    readSlot i (s.latch m) = (readSlot i s).latch m := by
  unfold readSlot readEffect readValue
  rcases readTarget_cases i with ⟨h, -⟩ | ⟨j, -, e⟩ | ⟨j, -, e⟩ | ⟨-, -, e⟩
  · exact absurd h hi
  · rw [e]
    rfl
  · rw [e]
    rfl
  · simp only [e, State.raise_latch]
    rfl

/-- R132: no event reads the latch but a `RD` of `STATUS`, and none but a reset clears it. -/
theorem step_latch {s t : State} (hreset : s.pending.head? ≠ some .reset) (hstatus : s.pending.head? ≠ some (.rd 1))
    (h : step s = .next t) (m : BitVec 4) : step (s.latch m) = .next (t.latch m) := by
  rcases step_cases h with ⟨hp, rfl⟩ | ⟨rest, hp, -⟩ | ⟨i, rest, hp, rfl⟩ | ⟨i, v, rest, hp, hwrite⟩
  · exact step_idle hp
  · simp [hp] at hreset
  · have hi : i.toNat ≠ 1 := fun hi => by
      obtain rfl : i = 1 := BitVec.eq_of_toNat_eq hi
      simp [hp] at hstatus
    rw [step_read (s := s.latch m) hp]
    exact congrArg _ (readSlot_latch hi m (s.setPending rest))
  · replace hp : (s.latch m).pending = .wr i v :: rest := hp
    rcases hwrite with ⟨hi, c, hd, hexec⟩ | ⟨hi, r, hd, rfl⟩ | ⟨j, hj, rfl⟩ | ⟨j, hj, rfl⟩ | ⟨h0, h1, rfl⟩
    · rw [step_command hp hi hd]
      exact exec_latch hexec m
    · rw [step_illegal hp hi hd, ← State.raise_latch]
      rfl
    · exact step_write_key hp j hj
    · exact step_write_din hp j hj
    · rw [step_write_notPermitted hp h0 h1, ← State.raise_latch]
      rfl

/-- R27: `STATUS` shows the bits latched besides. -/
theorem State.status_latch (m : BitVec 4) (s : State) : (s.latch m).status = s.status ||| m.setWidth 32 <<< 16 := by
  simp only [State.status, State.latch, BitVec.setWidth_or, BitVec.shiftLeft_or_distrib, BitVec.or_assoc]

/-- Settles O37: the bits latched besides pass through every command and every event unread, but for a `RD` of `STATUS`. -/
theorem latchedErrorsBlockNothing : Obligations.LatchedErrorsBlockNothing := by
  refine ⟨fun i s t m h => exec_latch h m, fun s t m hreset hstatus h => step_latch hreset hstatus h m,
    fun s t m rest hp h => ?_⟩
  cases (step_read_status hp rfl).symm.trans h
  rw [← State.status_latch]
  exact step_read_status (s := s.latch m) hp rfl

end Sys2Proof.Machine
end

section
/-! SUPPORT. Proofs of the statements on command words, script lines and `STATUS` (30_encoding.md R60 to R68; 10_state.md R27). -/

namespace Sys2Proof.Machine

/-! ### Commands and their words (R60 to R65) -/

/-- Settles O1. -/
theorem decodeOfEncode : Obligations.DecodeOfEncode := fun i _ => decode_encode i

/-- Settles O2. -/
theorem encodeOfDecode : Obligations.EncodeOfDecode := fun _ _ h => encode_of_decode h

/-- Settles O6: each of the words is the encoding of its command. -/
theorem handWrittenWordsDecode : Obligations.HandWrittenWordsDecode :=
  ⟨decode_encode (.kexpE 16), decode_encode (.kexpE 255), decode_encode (.kexpD 32), decode_encode .enc, decode_encode .dec,
    decode_encode .wipe⟩

/-- The word the host is given as a number is the word written to `CMD`. -/
theorem State.withFetchWord_toNat (s : State) (v : Word) : s.withFetchWord 32 v.toNat = s.issueCommand v := by
  rw [State.withFetchWord, Nat.mod_eq_of_lt v.isLt, BitVec.ofNat_toNat, BitVec.setWidth_eq]

/-- Settles O7: both clauses are the rule of `step` for a command; the placed word stands at the head of the events. -/
theorem stepRunsDecodedCommand : Obligations.StepRunsDecodedCommand := by
  refine ⟨fun s v rest i hp hd _ => step_command hp rfl hd, fun s v i hd => ?_⟩
  rw [State.withFetchWord_toNat]
  exact step_command (s := s.issueCommand v) rfl rfl hd

/-! ### Script lines (R68) -/

theorem lineEvent_wr {i v : Nat} (hi : i < 64) (hv : v < 2 ^ 32) :
    lineEvent (.wr i v) = some (.wr (BitVec.ofNat 6 i) (BitVec.ofNat 32 v)) :=
  if_pos (by simpa [Line.wellFormed, Config.windowSlots, hi] using hv)

theorem lineEvent_rd {i : Nat} (hi : i < 64) (name : String) : lineEvent (.rd i name) = some (.rd (BitVec.ofNat 6 i)) :=
  if_pos (by simp [Line.wellFormed, Config.windowSlots, hi])

theorem lineEvent_kexpE {klen : Nat} (h : klen < 256) :
    lineEvent (.kexpE klen) = some (.wr Slot.cmd (encode (.kexpE (BitVec.ofNat 8 klen)))) :=
  if_pos (by simp [Line.wellFormed, h])

theorem lineEvent_kexpD {klen : Nat} (h : klen < 256) :
    lineEvent (.kexpD klen) = some (.wr Slot.cmd (encode (.kexpD (BitVec.ofNat 8 klen)))) :=
  if_pos (by simp [Line.wellFormed, h])

/-- R61: the word of format K as the number `(klen << 8) | op`. -/
theorem encodeKey_ofNat (op : BitVec 8) {klen : Nat} (h : klen < 256) :
    encodeKey op (BitVec.ofNat 8 klen) = BitVec.ofNat 32 (klen <<< 8 ||| op.toNat) := by
  have hop := op.isLt
  rw [← BitVec.toNat_inj, encodeKey_toNat, BitVec.toNat_ofNat, BitVec.toNat_ofNat, ← Nat.shiftLeft_add_eq_or_of_lt hop,
    Nat.shiftLeft_eq]
  omega

/-- Settles O8: one equation of `lineEvent` for each line. -/
theorem scriptLinesAreTransactions : Obligations.ScriptLinesAreTransactions := by
  refine ⟨fun i v hi hv => lineEvent_wr hi hv, fun i name hi => lineEvent_rd hi name, fun klen h => ⟨?_, ?_⟩,
    rfl, rfl, rfl, rfl, rfl, by decide, by decide⟩
  · rw [lineEvent_kexpE h, encode, encodeKey_ofNat _ h]
    rfl
  · rw [lineEvent_kexpD h, encode, encodeKey_ofNat _ h]
    rfl

/-! ### `STATUS` (R27) -/

theorem State.status_getLsbD_kvalid (s : State) : s.status.getLsbD 0 = s.kvalid := by simp [State.status]

theorem State.status_getLsbD_kdir (s : State) : s.status.getLsbD 1 = s.kdir := by simp [State.status]

theorem State.status_getLsbD_dvalid (s : State) : s.status.getLsbD 8 = s.dvalid := by simp [State.status]

theorem State.status_extract_nr (s : State) : s.status.extractLsb' 4 4 = s.nr := by
  ext n hn
  interval_cases n <;> simp [State.status]

theorem State.status_extract_err (s : State) : s.status.extractLsb' 16 4 = s.err := by
  ext n hn
  interval_cases n <;> simp [State.status]

/-- R27: every bit that is not named reads as 0. -/
theorem State.status_getLsbD_reserved (s : State) {n : Nat} (h : n = 2 ∨ n = 3 ∨ (9 ≤ n ∧ n ≤ 15) ∨ 20 ≤ n) :
    s.status.getLsbD n = false := by
  by_cases hn : n < 32
  · interval_cases n <;> simp [State.status] at h ⊢
  · exact BitVec.getLsbD_of_ge _ _ (by omega)

theorem extractLsb'_eq_zero {v : Word} {start len : Nat} (h : ∀ n < len, v.getLsbD (start + n) = false) :
    v.extractLsb' start len = 0 :=
  BitVec.eq_of_getLsbD_eq fun n hn => by simp [h n hn]

/-- Settles O15: the fields bit by bit, the two accesses by the rules of `step`, and the worked values by running the commands. -/
theorem statusFields : Obligations.StatusFields := by
  refine ⟨fun s => ?_, fun s rest hp => step_read_status hp rfl,
    fun s v rest hp => step_write_notPermitted hp (by decide) (by decide), rfl, ⟨_, rfl, rfl⟩, ⟨_, rfl, rfl⟩,
    ⟨_, _, rfl, rfl, rfl⟩, ⟨_, rfl, rfl⟩⟩
  have hreserved {start len : Nat} (h : ∀ n < len, start + n = 2 ∨ start + n = 3 ∨ (9 ≤ start + n ∧ start + n ≤ 15) ∨
      20 ≤ start + n) : s.status.extractLsb' start len = 0 :=
    extractLsb'_eq_zero fun n hn => s.status_getLsbD_reserved (h n hn)
  exact ⟨s.status_getLsbD_kvalid, s.status_getLsbD_kdir, hreserved (by omega), s.status_extract_nr,
    s.status_getLsbD_dvalid, hreserved (by omega), s.status_extract_err, hreserved (by omega)⟩

end Sys2Proof.Machine
end

section
/-! SUPPORT. Proofs of the statements on the order of events (20_memory.md section 5; 70_reset_and_hazards.md section 2): every
step completes and takes the oldest event, and writes to different operand registers commute. -/

namespace Sys2Proof.Machine

/-! ### Steps and runs complete (R136, R150, R160) -/

theorem exec_completes (i : Instr) (s : State) : ∃ t, exec i s = .next t := by
  cases i <;> exact ⟨_, rfl⟩

theorem step_completes (s : State) : ∃ t, step s = .next t := by
  unfold step
  cases nextAction s with
  | run i u => exact exec_completes i u
  | done u => exact ⟨u, rfl⟩

/-- R150: a run of `k` steps takes the `k` oldest events, by induction on the steps. -/
theorem run_completes (k : Nat) (s : State) : ∃ t : State, core.run k s = .next t ∧ t.pending = s.pending.drop k := by
  induction k generalizing s with
  | zero => exact ⟨s, rfl, rfl⟩
  | succ k ih =>
    obtain ⟨u, hstep⟩ := step_completes s
    obtain ⟨t, hrun, hpending⟩ := ih u
    exact ⟨t, (run_succ k hstep).trans hrun, by rw [hpending, step_pending hstep, List.drop_tail]⟩

/-- Settles O18. -/
theorem everyStepCompletes : Obligations.EveryStepCompletes := step_completes

/-- Settles O17: the events of the next state are the tail of those pending. -/
theorem eventsTakenInIssueOrder : Obligations.EventsTakenInIssueOrder := fun s t e rest hp h => by
  rw [step_pending h, hp, List.tail_cons]

/-- Settles O19: a run of as many steps as events are pending leaves none. -/
theorem everyEventListHasFinalState : Obligations.EveryEventListHasFinalState := fun s => by
  obtain ⟨t, hrun, hpending⟩ := run_completes s.pending.length s
  exact ⟨t, hrun, by rw [hpending, List.drop_length]⟩

/-! ### Reset (R146) -/

/-- R46: after reset every readable slot reads 0, and the read changes no register. -/
theorem readSlot_of_reset {i : BitVec 6} (hi : i.toNat = 1 ∨ (12 ≤ i.toNat ∧ i.toNat ≤ 19)) (rest : List Event) :
    readSlot i (State.reset.setPending rest) = (State.reset.setPending rest).giveBack 0 := by
  rcases readSlot_cases i (State.reset.setPending rest) with ⟨-, e⟩ | ⟨j, -, e⟩ | ⟨j, -, e⟩ | ⟨h1, h2, -⟩
  · rwa [State.status_eq_zero rfl rfl rfl rfl rfl] at e
  · simpa [State.reset] using e
  · simpa [State.reset] using e
  · omega

/-- Settles O11: the readable slots are zero, and with nothing pending a step is idle. -/
theorem resetAsTheHostSeesIt : Obligations.ResetAsTheHostSeesIt := by
  refine ⟨fun i rest hi => ?_, rfl, rfl, rfl, step_idle rfl⟩
  rw [step_read (i := i) (rest := rest) rfl]
  exact congrArg _ (readSlot_of_reset hi rest)

/-! ### Writes to the operand registers (R45, R69) -/

/-- R45: the word a `WR` puts into the `KEY` or `DIN` register of its slot. -/
def State.writeOperand (i : BitVec 6) (v : Word) (s : State) : State :=
  match writeTarget i with
  | .key j => s.setKey j v
  | .din j => s.setDin j v
  | _ => s

/-- R42: the operand slots are those of `KEY` and `DIN`. -/
theorem State.writeOperand_cases {i : BitVec 6} (h : 4 ≤ i.toNat ∧ i.toNat ≤ 15) :
    (∃ j : Fin 8, i.toNat = 4 + j.val ∧ ∀ v s, State.writeOperand i v s = s.setKey j v) ∨
    (∃ j : Fin 4, i.toNat = 12 + j.val ∧ ∀ v s, State.writeOperand i v s = s.setDin j v) := by
  rcases writeTarget_cases i with ⟨hi, -⟩ | ⟨j, hj, e⟩ | ⟨j, hj, e⟩ | ⟨-, hi, -⟩
  · omega
  · exact .inl ⟨j, hj, fun v s => by rw [State.writeOperand, e]⟩
  · exact .inr ⟨j, hj, fun v s => by rw [State.writeOperand, e]⟩
  · omega

theorem step_write_operand {s : State} {i : BitVec 6} {v : Word} {rest : List Event} (hp : s.pending = .wr i v :: rest)
    (hi : 4 ≤ i.toNat ∧ i.toNat ≤ 15) : step s = .next ((s.setPending rest).writeOperand i v) := by
  rcases State.writeOperand_cases hi with ⟨j, hj, e⟩ | ⟨j, hj, e⟩
  · rw [e, step_write_key hp j hj]
  · rw [e, step_write_din hp j hj]

@[simp] theorem State.writeOperand_pending (i : BitVec 6) (v : Word) (s : State) :
    (s.writeOperand i v).pending = s.pending := by
  unfold State.writeOperand
  cases writeTarget i <;> rfl

theorem State.writeOperand_setPending (i : BitVec 6) (v : Word) (es : List Event) (s : State) :
    (s.writeOperand i v).setPending es = (s.setPending es).writeOperand i v := by
  unfold State.writeOperand
  cases writeTarget i <;> rfl

theorem State.setKey_setKey_comm {j k : Fin 8} (h : j ≠ k) (v w : Word) (s : State) :
    (s.setKey j v).setKey k w = (s.setKey k w).setKey j v := by
  simp only [State.setKey, Vector.set_comm _ _ (Fin.val_ne_of_ne h)]

theorem State.setDin_setDin_comm {j k : Fin 4} (h : j ≠ k) (v w : Word) (s : State) :
    (s.setDin j v).setDin k w = (s.setDin k w).setDin j v := by
  simp only [State.setDin, Vector.set_comm _ _ (Fin.val_ne_of_ne h)]

theorem State.setKey_setDin_comm (j : Fin 8) (k : Fin 4) (v w : Word) (s : State) :
    (s.setKey j v).setDin k w = (s.setDin k w).setKey j v := rfl

/-- R69: different slots are different registers. -/
theorem State.writeOperand_comm {i j : BitVec 6} (hij : i ≠ j) (hi : 4 ≤ i.toNat ∧ i.toNat ≤ 15)
    (hj : 4 ≤ j.toNat ∧ j.toNat ≤ 15) (v w : Word) (s : State) :
    (s.writeOperand i v).writeOperand j w = (s.writeOperand j w).writeOperand i v := by
  have hne : i.toNat ≠ j.toNat := fun h => hij (BitVec.eq_of_toNat_eq h)
  rcases State.writeOperand_cases hi with ⟨m, hm, ei⟩ | ⟨m, hm, ei⟩ <;>
    rcases State.writeOperand_cases hj with ⟨n, hn, ej⟩ | ⟨n, hn, ej⟩ <;> simp only [ei, ej]
  · exact State.setKey_setKey_comm (by rintro rfl; omega) v w s
  · exact State.setKey_setDin_comm m n v w s
  · exact (State.setKey_setDin_comm n m w v s).symm
  · exact State.setDin_setDin_comm (by rintro rfl; omega) v w s

theorem run_two_operand_writes {s : State} {i j : BitVec 6} {v w : Word} {rest : List Event}
    (hp : s.pending = .wr i v :: .wr j w :: rest) (hi : 4 ≤ i.toNat ∧ i.toNat ≤ 15) (hj : 4 ≤ j.toNat ∧ j.toNat ≤ 15) :
    core.run 2 s = .next (((s.setPending rest).writeOperand i v).writeOperand j w) := by
  rw [run_succ 1 (step_write_operand hp hi),
    run_succ 0 (step_write_operand (State.writeOperand_pending i v _) hj), run_zero, State.writeOperand_setPending,
    State.setPending_setPending]

/-- Settles O20: each order of the two writes leaves both registers written, and they are different ones. -/
theorem operandWritesCommute : Obligations.OperandWritesCommute := by
  intro s i j v w rest hij hi4 hi15 hj4 hj15
  refine ⟨((s.setPending rest).writeOperand i v).writeOperand j w, run_two_operand_writes rfl ⟨hi4, hi15⟩ ⟨hj4, hj15⟩, ?_,
    by simp⟩
  rw [State.writeOperand_comm hij ⟨hi4, hi15⟩ ⟨hj4, hj15⟩]
  exact run_two_operand_writes rfl ⟨hj4, hj15⟩ ⟨hi4, hi15⟩

end Sys2Proof.Machine
end

section
/-! SUPPORT. Proofs of the statements that hold of several commands at once (10_state.md R35; 20_memory.md R49; 41_key_expand.md
R104; 43_decrypt_block.md R117): frames, what is read, the same command twice, and the round trips through the registers. -/

namespace Sys2Proof.Machine

/-! ### Frames (R35) -/

theorem keyCommand_keepsResult (expand : List Byte → Nat → Schedule) (order : Bool) (klen : BitVec 8) (s : State) :
    (keyCommand expand order klen s).dout = s.dout ∧ (keyCommand expand order klen s).dvalid = s.dvalid := by
  rcases keyCommand_cases expand order klen s with ⟨-, e⟩ | ⟨-, e⟩ <;> rw [e] <;> exact ⟨rfl, rfl⟩

/-- R35: a key command leaves the result and the three `ERR` bits that are not its own. -/
theorem keyCommand_frame (expand : List Byte → Nat → Schedule) (order : Bool) (klen : BitVec 8) (s : State) :
    (keyCommand expand order klen s).dout = s.dout ∧ (keyCommand expand order klen s).dvalid = s.dvalid ∧
      (keyCommand expand order klen s).err.extractLsb' 1 3 = s.err.extractLsb' 1 3 := by
  obtain ⟨hdout, hdvalid⟩ := keyCommand_keepsResult expand order klen s
  refine ⟨hdout, hdvalid, ?_⟩
  rw [keyCommand_err, BitVec.extractLsb'_or]
  cases legalKeyLength klen <;> simp [Cause.bit, Cause.code]

/-- R35: a block command leaves the slot and the three `ERR` bits that are not its own. -/
theorem blockCommand_frame (run : Block → Schedule → Nat → Block) (order : Bool) (s : State) :
    s.keepsSlot (blockCommand run order s) ∧ (blockCommand run order s).err.getLsbD 0 = s.err.getLsbD 0 ∧
      (blockCommand run order s).err.extractLsb' 2 2 = s.err.extractLsb' 2 2 := by
  refine ⟨blockCommand_keepsSlot run order s, ?_⟩
  rw [blockCommand_err, BitVec.extractLsb'_or, BitVec.getLsbD_or]
  cases s.holdsSchedule order <;> simp [Cause.bit, Cause.code]

/-- Settles O31: the frame of each of the two shared operations, and `WIPE` by its named updates. -/
theorem commandFrames : Obligations.CommandFrames := by
  intro i s t h
  obtain ⟨hpending, hreturned⟩ := exec_host_lists h
  refine ⟨hpending, hreturned, fun hi => exec_keepsOperands hi h, fun klen hi => ?_, fun hi => ?_, fun hi => ?_⟩
  · rcases hi with rfl | rfl <;> cases h
    · exact keyCommand_frame expandEnc false klen s
    · exact keyCommand_frame expandDec true klen s
  · obtain ⟨⟨hrk, hkvalid, hkdir, hnr⟩, hkeylen, hothers⟩ : s.keepsSlot t ∧ t.err.getLsbD 0 = s.err.getLsbD 0 ∧
        t.err.extractLsb' 2 2 = s.err.extractLsb' 2 2 := by
      rcases hi with rfl | rfl <;> cases h
      · exact blockCommand_frame cipher false s
      · exact blockCommand_frame eqInvCipher true s
    exact ⟨hrk, hkvalid, hkdir, hnr, hkeylen, hothers⟩
  · subst hi
    cases h
    rfl

/-! ### What the commands read of `KEY` (R104, R112, R117) -/

/-- R19: the first `n` bytes of `KEY` lie in its first `n / 4` words. -/
theorem keyBytes_congr {key key' : Vector Word 8} {n : Nat} (hn : n ≤ 32) (hwhole : n % 4 = 0)
    (h : ∀ (j : Nat) (hj : j < 8), j < n / 4 → key[j] = key'[j]) : keyBytes key n = keyBytes key' n := by
  refine List.ext_getElem? fun k => ?_
  by_cases hk : k < n
  · rw [keyBytes_getElem? key (by omega) hk, keyBytes_getElem? key' (by omega) hk, h (k / 4) (by omega) (by omega)]
  · rw [List.getElem?_eq_none (by simp [keyBytes]; omega), List.getElem?_eq_none (by simp [keyBytes]; omega)]

/-- R103, R104: the slot a key command leaves, as a function of `klen` and its key string. -/
theorem keyCommand_slot_congr (expand : List Byte → Nat → Schedule) (order : Bool) {klen : BitVec 8} {s t : State}
    (h : ∀ (j : Nat) (hj : j < 8), j < klen.toNat / 4 → s.key[j] = t.key[j]) :
    (keyCommand expand order klen t).keepsSlot (keyCommand expand order klen s) := by
  by_cases hlegal : klen = 16 ∨ klen = 24 ∨ klen = 32
  · have hlen : klen.toNat ≤ 32 ∧ klen.toNat % 4 = 0 := by rcases hlegal with rfl | rfl | rfl <;> decide
    rw [keyCommand_of_legal expand order s hlegal, keyCommand_of_legal expand order t hlegal,
      keyBytes_congr hlen.1 hlen.2 h]
    exact ⟨rfl, rfl, rfl, rfl⟩
  · rw [keyCommand_of_illegal expand order s hlegal, keyCommand_of_illegal expand order t hlegal]
    exact ⟨rfl, rfl, rfl, rfl⟩

/-- Settles O24: the two key commands share one operation. -/
theorem scheduleDependsOnKeyBytesOnly : Obligations.ScheduleDependsOnKeyBytesOnly := by
  intro klen i s t s' t' hi h hs ht
  rcases hi with rfl | rfl <;> cases hs <;> cases ht
  · exact keyCommand_slot_congr expandEnc false h
  · exact keyCommand_slot_congr expandDec true h

/-- R112 item 4, R117 item 5: the tags decide, and the block function takes `DIN`, `RK` and `NR`. -/
theorem blockCommand_with_key (run : Block → Schedule → Nat → Block) (order : Bool) (s : State) (key : Vector Word 8) :
    blockCommand run order { s with key := key } = { blockCommand run order s with key := key } := by
  by_cases h : s.kvalid = true ∧ s.kdir = order
  · rw [blockCommand_of_schedule run h.1 h.2, blockCommand_of_schedule run (s := { s with key := key }) h.1 h.2]
  · rw [blockCommand_of_noSchedule run h, blockCommand_of_noSchedule run (s := { s with key := key }) h]

/-- Settles O28: the two block commands share one operation. -/
theorem blockCommandsIgnoreRawKey : Obligations.BlockCommandsIgnoreRawKey := by
  intro i s t key hi h
  rcases hi with rfl | rfl <;> cases h
  · rw [exec_enc, blockCommand_with_key]
  · rw [exec_dec, blockCommand_with_key]

/-! ### The same command twice (R49) -/

/-- R49: a key command writes nothing it reads, and its failure is the same once latched. -/
theorem keyCommand_again (expand : List Byte → Nat → Schedule) (order : Bool) (klen : BitVec 8) (s : State) :
    keyCommand expand order klen (keyCommand expand order klen s) = keyCommand expand order klen s := by
  rcases keyCommand_cases expand order klen s with ⟨hlegal, e⟩ | ⟨hillegal, e⟩ <;> rw [e]
  · rw [keyCommand_legal hlegal]
    rfl
  · rw [keyCommand_illegal hillegal]
    exact State.raise_raise .invalidKeyLength s.clearSchedule

/-- R49: a block command writes nothing it reads, and its failure is the same once latched. -/
theorem blockCommand_again (run : Block → Schedule → Nat → Block) (order : Bool) (s : State) :
    blockCommand run order (blockCommand run order s) = blockCommand run order s := by
  rcases blockCommand_cases run order s with ⟨hready, e⟩ | ⟨hnot, e⟩ <;> rw [e]
  · rw [blockCommand_ready (s := s.setResult _) hready]
    rfl
  · rw [blockCommand_notReady (s := failBlockCommand s) hnot]
    exact State.raise_raise .noSchedule s.clearResult

/-- Settles O32: by command. -/
theorem commandTwiceIsOnce : Obligations.CommandTwiceIsOnce := by
  intro i s t h
  rcases exec_cases h with ⟨klen, rfl, rfl⟩ | ⟨klen, rfl, rfl⟩ | ⟨rfl, rfl⟩ | ⟨rfl, rfl⟩ | ⟨rfl, -⟩
  · rw [exec_kexpE, keyCommand_again]
  · rw [exec_kexpD, keyCommand_again]
  · rw [exec_enc, blockCommand_again]
  · rw [exec_dec, blockCommand_again]
  · exact exec_wipe_again h

/-! ### Round trips through the registers (R117) -/

/-- R110, R115: with a legal `klen`, a key command and the block command of its order put the result of the block function
into `DOUT`. -/
theorem blockCommand_keyCommand (expand : List Byte → Nat → Schedule) (run : Block → Schedule → Nat → Block) (order : Bool)
    {klen : BitVec 8} (s : State) (h : klen = 16 ∨ klen = 24 ∨ klen = 32) :
    blockCommand run order (keyCommand expand order klen s) = (keyCommand expand order klen s).setResult (wordsOf
      (run (blockOf s.din) (expand (keyBytes s.key klen.toNat) (klen.toNat / 4)) (klen.toNat / 4 + 6))) := by
  have hrounds : (BitVec.ofNat 4 (klen.toNat / 4 + 6)).toNat = klen.toNat / 4 + 6 := by
    rcases h with rfl | rfl | rfl <;> decide
  rw [keyCommand_of_legal expand order s h]
  refine (blockCommand_of_schedule run rfl rfl).trans ?_
  simp only [hrounds]
  rfl

/-- R10, R100: the number of key words of a legal `klen`. -/
theorem keyWords_of_legal {klen : BitVec 8} (h : klen = 16 ∨ klen = 24 ∨ klen = 32) :
    klen.toNat / 4 = 4 ∨ klen.toNat / 4 = 6 ∨ klen.toNat / 4 = 8 := by
  rcases h with rfl | rfl | rfl <;> decide

theorem keyBytes_length_of_legal (key : Vector Word 8) {klen : BitVec 8} (h : klen = 16 ∨ klen = 24 ∨ klen = 32) :
    (keyBytes key klen.toNat).length = 4 * (klen.toNat / 4) := by
  rcases h with rfl | rfl | rfl <;> simp [keyBytes]

/-- R117: a second block function that undoes the first under the two schedules of one key gives `DIN` back. -/
theorem register_roundTrip {expand expand' : List Byte → Nat → Schedule} {run run' : Block → Schedule → Nat → Block}
    (order : Bool) {klen : BitVec 8} (s : State) (h : klen = 16 ∨ klen = 24 ∨ klen = 32)
    (hundo : ∀ (k : List Byte) (nk : Nat) (b : Block), nk = 4 ∨ nk = 6 ∨ nk = 8 → k.length = 4 * nk →
      run' (run b (expand k nk) (nk + 6)) (expand' k nk) (nk + 6) = b)
    {b d : State} (hb : b = blockCommand run order (keyCommand expand order klen s))
    (hd : d = blockCommand run' (!order) (keyCommand expand' (!order) klen { b with din := b.dout })) :
    d.dout = s.din ∧ d.dvalid = true ∧ d.err = s.err := by
  rw [blockCommand_keyCommand expand run order s h, keyCommand_of_legal expand order s h] at hb
  subst hb
  rw [blockCommand_keyCommand expand' run' _ _ h, keyCommand_of_legal expand' _ _ h] at hd
  subst hd
  refine ⟨?_, rfl, rfl⟩
  simp [hundo _ _ _ (keyWords_of_legal h) (keyBytes_length_of_legal s.key h)]

/-- Settles O33: the laws L4 and L5 of R95, each between a key command and the other one. -/
theorem registerRoundTrips : Obligations.RegisterRoundTrips := by
  obtain ⟨-, -, -, -, hlaws⟩ := aesLaws
  intro klen s h
  exact ⟨⟨_, _, _, _, rfl, rfl, rfl, rfl,
      register_roundTrip false s h (fun k nk b hnk hk => (hlaws k nk b hnk hk).1) rfl rfl⟩,
    ⟨_, _, _, _, rfl, rfl, rfl, rfl,
      register_roundTrip true s h (fun k nk b hnk hk => (hlaws k nk b hnk hk).2) rfl rfl⟩⟩

end Sys2Proof.Machine
end

section
/-! SUPPORT. Proofs of the statements on the state as a whole (10_state.md R35, R37; 60_exceptions.md R135, R139): the invariants,
which events can change what, and that nothing shows the key material. -/

namespace Sys2Proof.Machine

/-! ### One cause an event (R135) -/

/-- Settles O35: the bits a step sets are those of the one cause of its event. -/
theorem atMostOneCausePerEvent : Obligations.AtMostOneCausePerEvent := by
  intro s t h hr
  rw [step_err_eq h hr]
  cases s.cause with
  | none => exact ⟨0, by simp⟩
  | some c => exact ⟨c.code, fun m hm => by simp [hm]⟩

/-! ### What a step can do to the result (R29, R35) -/

/-- R35: `t` holds the result of `s`. -/
def State.keepsResult (s t : State) : Prop := t.dout = s.dout ∧ t.dvalid = s.dvalid

theorem readSlot_keepsRegisters (i : BitVec 6) (s : State) :
    (readSlot i s).key = s.key ∧ (readSlot i s).din = s.din ∧ s.keepsResult (readSlot i s) := by
  unfold readSlot readEffect
  cases readTarget i <;> exact ⟨rfl, rfl, rfl, rfl⟩

/-- R35: who writes the result: `ENC`, `DEC` and `WIPE`. -/
theorem exec_keepsResult {i : Instr} {s t : State} (h : exec i s = .next t) :
    s.keepsResult t ∨ i = .enc ∨ i = .dec ∨ i = .wipe := by
  rcases exec_cases h with ⟨klen, -, rfl⟩ | ⟨klen, -, rfl⟩ | ⟨hi, -⟩ | ⟨hi, -⟩ | ⟨hi, -⟩
  · exact .inl (keyCommand_keepsResult expandEnc false klen s)
  · exact .inl (keyCommand_keepsResult expandDec true klen s)
  · exact .inr (.inl hi)
  · exact .inr (.inr (.inl hi))
  · exact .inr (.inr (.inr hi))

/-! ### The invariants (R37) -/

/-- R37 I1 to I3, which speak of the slot alone. -/
structure State.SlotInv (s : State) : Prop where
  emptySlotZero : s.emptySlotZero
  scheduleShaped : s.scheduleShaped
  scheduleDerived : s.scheduleDerived

theorem State.inv_iff (s : State) : s.Inv ↔ s.SlotInv ∧ s.noResultZero :=
  ⟨fun ⟨h1, h2, h3, h4⟩ => ⟨⟨h1, h2, h3⟩, h4⟩, fun ⟨⟨h1, h2, h3⟩, h4⟩ => ⟨h1, h2, h3, h4⟩⟩

theorem State.SlotInv.of_keepsSlot {s t : State} (hs : s.SlotInv) (h : s.keepsSlot t) : t.SlotInv := by
  obtain ⟨hrk, hkv, hkd, hnr⟩ := h
  obtain ⟨h1, h2, h3⟩ := hs
  refine ⟨?_, ?_, ?_⟩
  · simpa only [State.emptySlotZero, hrk, hkv, hkd, hnr] using h1
  · simpa only [State.scheduleShaped, hrk, hkv, hkd, hnr] using h2
  · simpa only [State.scheduleDerived, hrk, hkv, hkd, hnr] using h3

theorem State.SlotInv.of_slotEmptied {t : State} (h : t.slotEmptied) : t.SlotInv := by
  obtain ⟨hrk, hkv, hkd, hnr⟩ := h
  exact ⟨fun _ => ⟨hkd, hnr, hrk⟩, by simp [State.scheduleShaped, hkv], by simp [State.scheduleDerived, hkv]⟩

/-- R90, R92: the expansion of a key of `4 nk` bytes, in either order, ends in zeros. -/
theorem expansion_tail {k : List Byte} {nk i : Nat} (order : Bool) (hk : k.length = 4 * nk) (h : i < 60)
    (hi : 4 * (nk + 6 + 1) ≤ i) : ((if order then expandDec else expandEnc) k nk)[i] = 0 := by
  cases order
  · exact expandEnc_tail hk h hi
  · exact decryptOrder_tail (nr := nk + 6) (expandEnc k nk) h hi

/-- R37 I1 to I3 of a slot that holds the expansion of a key of legal length. -/
theorem State.SlotInv.of_expansion {t : State} {k : List Byte} {nk : Nat} (hnk : nk = 4 ∨ nk = 6 ∨ nk = 8)
    (hk : k.length = 4 * nk) (hrk : t.rk = (if t.kdir then expandDec else expandEnc) k nk) (hkv : t.kvalid = true)
    (hnr : t.nr = BitVec.ofNat 4 (nk + 6)) : t.SlotInv := by
  have hrounds : t.nr.toNat = nk + 6 := by
    rw [hnr]
    rcases hnk with rfl | rfl | rfl <;> rfl
  have hnk' : t.nr.toNat - 6 = nk := by omega
  refine ⟨by simp [State.emptySlotZero, hkv], fun _ => ⟨?_, fun i h hi => ?_⟩, fun _ => ⟨k, by rw [hnk', hk], by rw [hnk', hrk]⟩⟩
  · rw [hnr]
    rcases hnk with rfl | rfl | rfl <;> decide
  · rw [getElem_congr_coll hrk]
    exact expansion_tail t.kdir hk h (by omega)

theorem State.SlotInv.of_slotReplaced {i : Instr} {s t : State} (h : s.slotReplaced i t) : t.SlotInv := by
  obtain ⟨klen, hi, hlegal, hrk, hkv, hkd, hnr⟩ := h
  refine .of_expansion (keyWords_of_legal hlegal) (keyBytes_length_of_legal s.key hlegal) ?_ hkv hnr
  rcases hi with rfl | rfl <;> simpa [hkd] using hrk

/-- R37 I1 to I3: by what a step can do to the slot. -/
theorem State.SlotInv.of_step {s t : State} (hs : s.SlotInv) (h : step s = .next t) : t.SlotInv := by
  rcases step_slot_cases h with hkeep | ⟨-, hempty⟩ | ⟨v, rest, i, -, -, hreplaced | ⟨-, hempty⟩⟩
  · exact hs.of_keepsSlot hkeep
  · exact .of_slotEmptied hempty
  · exact .of_slotReplaced hreplaced
  · exact .of_slotEmptied hempty

theorem State.noResultZero_of_keepsResult {s t : State} (hs : s.noResultZero) (h : s.keepsResult t) : t.noResultZero := by
  obtain ⟨hdout, hdvalid⟩ := h
  simpa only [State.noResultZero, hdout, hdvalid] using hs

/-- R37 I4 holds after every block command. -/
theorem blockCommand_noResultZero (run : Block → Schedule → Nat → Block) (order : Bool) (s : State) :
    (blockCommand run order s).noResultZero := by
  rcases blockCommand_cases run order s with ⟨-, e⟩ | ⟨-, e⟩ <;> rw [e]
  · simp [State.noResultZero]
  · exact fun _ => rfl

theorem exec_noResultZero {i : Instr} {s t : State} (hs : s.noResultZero) (h : exec i s = .next t) : t.noResultZero := by
  rcases exec_keepsResult h with hkeep | rfl | rfl | rfl
  · exact State.noResultZero_of_keepsResult hs hkeep
  all_goals cases h
  · exact blockCommand_noResultZero cipher false s
  · exact blockCommand_noResultZero eqInvCipher true s
  · exact fun _ => rfl

/-- R37 I4: by event; only a command or a reset writes the result. -/
theorem step_noResultZero {s t : State} (hs : s.noResultZero) (h : step s = .next t) : t.noResultZero := by
  rcases step_cases h with ⟨-, rfl⟩ | ⟨rest, -, rfl⟩ | ⟨i, rest, -, rfl⟩ | ⟨i, v, rest, -, hwrite⟩
  · exact hs
  · exact fun _ => rfl
  · obtain ⟨-, -, hkeep⟩ := readSlot_keepsRegisters i (s.setPending rest)
    exact State.noResultZero_of_keepsResult hs hkeep
  · rcases hwrite with ⟨-, c, -, hexec⟩ | ⟨-, r, -, rfl⟩ | ⟨j, -, rfl⟩ | ⟨j, -, rfl⟩ | ⟨-, -, rfl⟩
    · exact exec_noResultZero (s := s.setPending rest) hs hexec
    all_goals exact hs

/-- Settles O39: I1 to I3 by what a step can do to the slot, I4 by what it can do to the result, I5 as the latch is sticky. -/
theorem stepKeepsInvariants : Obligations.StepKeepsInvariants := by
  intro s t hs h
  rw [State.inv_iff] at hs ⊢
  obtain ⟨hslot, hresult⟩ := hs
  exact ⟨⟨hslot.of_step h, step_noResultZero hresult h⟩, fun hr n => err_getLsbD_mono (step_err_eq h hr)⟩

/-- Settles O38: reset leaves the slot empty and no result. -/
theorem resetMeetsInvariants : Obligations.ResetMeetsInvariants :=
  State.reset.inv_iff.2 ⟨.of_slotEmptied ⟨rfl, rfl, rfl, rfl⟩, fun _ => rfl⟩

/-! ### `STATUS` in a state with the invariants (R27, R37) -/

/-- R27: the low byte of `STATUS` shows the tags of the slot. -/
theorem State.status_low_byte (s : State) : s.status &&& (0xFF : Word) =
    (BitVec.ofBool s.kvalid).setWidth 32 ||| (BitVec.ofBool s.kdir).setWidth 32 <<< 1 ||| s.nr.setWidth 32 <<< 4 := by
  ext n hn
  interval_cases n <;> simp [State.status]

theorem State.status_reserved (s : State) : s.status &&& 0xFFF0FE0C = 0 := by
  ext n hn
  interval_cases n <;> simp [State.status]

/-- Settles O40: I1 fixes the tags of an empty slot, and I2 leaves three round counts. -/
theorem statusOfInvariantStates : Obligations.StatusOfInvariantStates := by
  refine fun s hs => ⟨?_, s.status_reserved⟩
  rw [State.status_low_byte]
  cases hkv : s.kvalid with
  | false =>
    obtain ⟨hkd, hnr, -⟩ := hs.emptySlotZero hkv
    rw [hkd, hnr]
    decide
  | true =>
    obtain ⟨hnr, -⟩ := hs.scheduleShaped hkv
    cases s.kdir <;> rcases hnr with hnr | hnr | hnr <;> rw [hnr] <;> decide

/-! ### Which events can change what (R35) -/

/-- Settles O42: by event. -/
theorem eventFrames : Obligations.EventFrames := by
  intro s t h hreset hwipe
  rcases step_cases h with ⟨-, rfl⟩ | ⟨rest, hp, -⟩ | ⟨i, rest, hp, rfl⟩ | ⟨i, v, rest, hp, hwrite⟩
  · simp
  · exact absurd hp (hreset rest)
  · obtain ⟨hkey, hdin, hdout, hdvalid⟩ := readSlot_keepsRegisters i (s.setPending rest)
    exact ⟨absurd hkey, absurd hdin, fun hresult => absurd ⟨hdout, hdvalid⟩ (not_and_or.2 hresult), fun _ => ⟨i, rest, hp⟩⟩
  · have hreturned : t.returned = s.returned := step_write_returned hp h
    rcases hwrite with ⟨hi, c, hd, hexec⟩ | ⟨-, r, -, rfl⟩ | ⟨j, hj, rfl⟩ | ⟨j, hj, rfl⟩ | ⟨-, -, rfl⟩
    · obtain rfl : i = 0 := BitVec.eq_of_toNat_eq hi
      have hc : c ≠ .wipe := fun hc => hwipe v rest hp (hc ▸ hd)
      obtain ⟨hkey, hdin⟩ := exec_keepsOperands hc hexec
      refine ⟨absurd hkey, absurd hdin, fun hresult => ⟨v, rest, hp, ?_⟩, absurd hreturned⟩
      rcases exec_keepsResult hexec with hkeep | rfl | rfl | rfl
      · exact absurd hkeep (not_and_or.2 hresult)
      · exact .inl hd
      · exact .inr hd
      · exact absurd rfl hc
    · simp
    · exact ⟨fun _ => ⟨i, v, rest, hp, by omega, by omega⟩, by simp⟩
    · exact ⟨by simp, fun _ => ⟨i, v, rest, hp, by omega, by omega⟩, by simp⟩
    · simp

/-! ### Nothing shows the key material (R139, R143) -/

/-- R22, R26: the state with other key material in `KEY` and `RK`. -/
def State.withKeyMaterial (key : Vector Word 8) (rk : Schedule) (s : State) : State := { s with key := key, rk := rk }

/-- R100 to R102: `klen` decides, and what is read of `KEY` goes to `RK`. -/
theorem keyCommand_withKeyMaterial (expand : List Byte → Nat → Schedule) (order : Bool) (klen : BitVec 8)
    (key : Vector Word 8) (rk : Schedule) (s : State) : ∃ key' rk',
      keyCommand expand order klen (s.withKeyMaterial key rk) = (keyCommand expand order klen s).withKeyMaterial key' rk' := by
  cases hlegal : legalKeyLength klen
  · rw [keyCommand_illegal hlegal, keyCommand_illegal hlegal]
    exact ⟨key, _, rfl⟩
  · rw [keyCommand_legal hlegal, keyCommand_legal hlegal]
    exact ⟨key, _, rfl⟩

/-- R139: a command that is no block command carries key material to `KEY` and `RK` alone. -/
theorem exec_withKeyMaterial {i : Instr} {s t : State} (hi : i ≠ .enc ∧ i ≠ .dec) (h : exec i s = .next t)
    (key : Vector Word 8) (rk : Schedule) :
    ∃ key' rk', exec i (s.withKeyMaterial key rk) = .next (t.withKeyMaterial key' rk') := by
  rcases exec_cases h with ⟨klen, rfl, rfl⟩ | ⟨klen, rfl, rfl⟩ | ⟨henc, -⟩ | ⟨hdec, -⟩ | ⟨rfl, rfl⟩
  · obtain ⟨key', rk', e⟩ := keyCommand_withKeyMaterial expandEnc false klen key rk s
    exact ⟨key', rk', by rw [exec_kexpE, e]⟩
  · obtain ⟨key', rk', e⟩ := keyCommand_withKeyMaterial expandDec true klen key rk s
    exact ⟨key', rk', by rw [exec_kexpD, e]⟩
  · exact absurd henc hi.1
  · exact absurd hdec hi.2
  · exact ⟨_, _, rfl⟩

/-- R139: no `RD` reads `KEY` or `RK`. -/
theorem readSlot_withKeyMaterial (i : BitVec 6) (key : Vector Word 8) (rk : Schedule) (s : State) :
    readSlot i (s.withKeyMaterial key rk) = (readSlot i s).withKeyMaterial key rk := by
  unfold readSlot readEffect readValue
  cases readTarget i <;> rfl

/-- Settles O43: by event. -/
theorem keyMaterialUnreadable : Obligations.KeyMaterialUnreadable := by
  intro s t key rk hblock h
  change ∃ key' rk', step (s.withKeyMaterial key rk) = .next (t.withKeyMaterial key' rk')
  rcases step_cases h with ⟨hp, rfl⟩ | ⟨rest, hp, rfl⟩ | ⟨i, rest, hp, rfl⟩ | ⟨i, v, rest, hp, hwrite⟩
  · exact ⟨key, rk, step_idle hp⟩
  · exact ⟨_, _, step_reset hp⟩
  · refine ⟨key, rk, ?_⟩
    rw [step_read (s := s.withKeyMaterial key rk) hp, ← readSlot_withKeyMaterial]
    rfl
  · replace hp : (s.withKeyMaterial key rk).pending = .wr i v :: rest := hp
    rcases hwrite with ⟨hi, c, hd, hexec⟩ | ⟨hi, r, hd, rfl⟩ | ⟨j, hj, rfl⟩ | ⟨j, hj, rfl⟩ | ⟨h0, h1, rfl⟩
    · obtain rfl : i = 0 := BitVec.eq_of_toNat_eq hi
      have hc : c ≠ .enc ∧ c ≠ .dec := (hblock v rest hp).imp (fun hne hc => hne (hc ▸ hd)) fun hne hc => hne (hc ▸ hd)
      rw [step_command hp rfl hd]
      exact exec_withKeyMaterial hc hexec key rk
    · exact ⟨key, rk, step_illegal hp hi hd⟩
    · exact ⟨key.set j v, rk, step_write_key hp j hj⟩
    · exact ⟨key, rk, step_write_din hp j hj⟩
    · exact ⟨key, rk, step_write_notPermitted hp h0 h1⟩

end Sys2Proof.Machine
end

section
/-! SUPPORT. Proofs of the statements on host scripts (30_encoding.md R68, R69; 70_reset_and_hazards.md R150). -/

namespace Sys2Proof.Machine

/-! ### The events of a script (R68, R150) -/

@[simp] theorem scriptEvents_nil : scriptEvents [] = some [] := rfl

theorem scriptEvents_cons {l : Line} {ls : List Line} {e : Event} {es : List Event} (hl : lineEvent l = some e)
    (hls : scriptEvents ls = some es) : scriptEvents (l :: ls) = some (e :: es) := by
  rw [scriptEvents] at hls ⊢
  simp [List.mapM_cons, hl, hls]

theorem exists_lineEvent {l : Line} (h : l.wellFormed = true) : ∃ e, lineEvent l = some e := by
  rcases lineEvent_cases h with ⟨i, v, hl, -⟩ | ⟨i, name, hl, -⟩ <;> exact ⟨_, hl⟩

/-- R68: a script of well-formed lines has one transaction a line. -/
theorem exists_scriptEvents {ls : List Line} (h : ∀ l ∈ ls, l.wellFormed = true) :
    ∃ es, scriptEvents ls = some es ∧ es.length = ls.length := by
  induction ls with
  | nil => exact ⟨[], rfl, rfl⟩
  | cons l ls ih =>
    obtain ⟨es, hes, hlen⟩ := ih fun l' hl' => h l' (List.mem_cons_of_mem l hl')
    obtain ⟨e, hl⟩ := exists_lineEvent (h l List.mem_cons_self)
    exact ⟨e :: es, scriptEvents_cons hl hes, by rw [List.length_cons, List.length_cons, hlen]⟩

theorem scriptEvents_illFormed {ls : List Line} (h : ∃ l ∈ ls, l.wellFormed = false) : scriptEvents ls = none := by
  induction ls with
  | nil => simp at h
  | cons l ls ih =>
    rw [scriptEvents, List.mapM_cons]
    cases hl : lineEvent l with
    | none => rfl
    | some e =>
      have hrest : scriptEvents ls = none := ih (by
        obtain ⟨l', hmem, hl'⟩ := h
        rcases List.mem_cons.1 hmem with rfl | hmem
        · simp [lineEvent_illFormed hl'] at hl
        · exact ⟨l', hmem, hl'⟩)
      rw [scriptEvents] at hrest
      simp [hrest]

/-! ### The run of a script (R68, R150) -/

theorem boundNames_cons_of_none {l : Line} (h : lineName l = none) (ls : List Line) : boundNames (l :: ls) = boundNames ls := by
  simp [boundNames, h]

theorem boundNames_cons_of_some {l : Line} {name : String} (h : lineName l = some name) (ls : List Line) :
    boundNames (l :: ls) = name :: boundNames ls := by
  simp [boundNames, h]

/-- R150: the transactions of a script run to the end, and one value is returned for each name, by induction on the lines. -/
theorem run_script {ls : List Line} (hls : ∀ l ∈ ls, l.wellFormed = true) {es : List Event} (hes : scriptEvents ls = some es)
    {s : State} (hp : s.pending = es) : ∃ (t : State) (vs : List Word), core.run es.length s = .next t ∧ t.pending = [] ∧
      t.returned = s.returned ++ vs ∧ vs.length = (boundNames ls).length := by
  induction ls generalizing es s with
  | nil =>
    obtain rfl : [] = es := by simpa using hes
    exact ⟨s, [], rfl, hp, by simp, rfl⟩
  | cons l ls ih =>
    have htail : ∀ l' ∈ ls, l'.wellFormed = true := fun l' hl' => hls l' (List.mem_cons_of_mem l hl')
    obtain ⟨rest, hrest, -⟩ := exists_scriptEvents htail
    obtain ⟨e, hl⟩ := exists_lineEvent (hls l List.mem_cons_self)
    obtain rfl : e :: rest = es := by simpa [scriptEvents_cons hl hrest] using hes
    obtain ⟨u, hstep⟩ := step_completes s
    obtain ⟨t, vs, hrun, hend, hvalues, hcount⟩ := ih htail hrest (s := u) (by rw [step_pending hstep, hp, List.tail_cons])
    replace hrun := (run_succ rest.length hstep).trans hrun
    rcases lineEvent_cases (hls l List.mem_cons_self) with ⟨i, v, hwr, hname⟩ | ⟨i, name, hrd, hname⟩
    · obtain rfl : e = .wr i v := Option.some_inj.1 (hl.symm.trans hwr)
      refine ⟨t, vs, hrun, hend, ?_, by rw [hcount, boundNames_cons_of_none hname]⟩
      rw [hvalues, step_write_returned hp hstep]
    · obtain rfl : e = .rd i := Option.some_inj.1 (hl.symm.trans hrd)
      refine ⟨t, readValue i (s.setPending rest) :: vs, hrun, hend, ?_, ?_⟩
      · rw [hvalues, step_read_returned hp hstep, List.append_assoc, List.singleton_append]
      · rw [List.length_cons, hcount, boundNames_cons_of_some hname, List.length_cons]

/-- R150: what `runScript` answers, from the events of the script and the run of the core. -/
theorem runScript_eq {ls : List Line} {es : List Event} {s t : State} {vs : List Word} (hes : scriptEvents ls = some es)
    (hrun : core.run es.length (s.setPending es) = .next t) (hvalues : t.returned = s.returned ++ vs) :
    runScript ls s = some ⟨t, (boundNames ls).zip vs⟩ := by
  simp [runScript, hes, hrun, bindResults, hvalues]

theorem readValue_setPending (i : BitVec 6) (es : List Event) (s : State) : readValue i (s.setPending es) = readValue i s := by
  unfold readValue
  cases readTarget i <;> rfl

/-- R41: a word index has 6 bits. -/
theorem slotIndex_toNat {i : Nat} (hi : i < 64) : (BitVec.ofNat 6 i).toNat = i := Nat.mod_eq_of_lt hi

theorem readValue_status {i : BitVec 6} (hi : i.toNat = 1) (s : State) : readValue i s = s.status := by
  rw [readValue, readTarget_status hi]

theorem readValue_din {i : BitVec 6} {j : Fin 4} (hi : i.toNat = 12 + j.val) (s : State) : readValue i s = s.din[j] := by
  rw [readValue, readTarget_din j hi]

theorem readValue_dout {i : BitVec 6} {j : Fin 4} (hi : i.toNat = 16 + j.val) (s : State) : readValue i s = s.dout[j] := by
  rw [readValue, readTarget_dout j hi]

theorem readValue_notPermitted {i : BitVec 6} (h1 : i.toNat ≠ 1) (h2 : i.toNat < 12 ∨ 19 < i.toNat) (s : State) :
    readValue i s = 0 := by
  rw [readValue, readTarget_notPermitted h1 h2]

/-- R68: the name of a script of one `RD` line stands for the value of its slot. -/
theorem valueOf_rd {i : Nat} (hi : i < 64) (name : String) (s : State) :
    ∃ r, runScript [.rd i name] s = some r ∧ r.valueOf name = some (readValue (BitVec.ofNat 6 i) s) := by
  have hes : scriptEvents [.rd i name] = some [.rd (BitVec.ofNat 6 i)] := scriptEvents_cons (lineEvent_rd hi name) rfl
  obtain ⟨t, hstep⟩ := step_completes (s.setPending [.rd (BitVec.ofNat 6 i)])
  have hvalue := step_read_returned (s := s.setPending [.rd (BitVec.ofNat 6 i)]) rfl hstep
  refine ⟨_, runScript_eq hes (run_succ 0 hstep) hvalue, ?_⟩
  simp [ScriptRun.valueOf, boundNames, lineName, readValue_setPending]

/-- Settles O58: the run by induction on the lines, and the value of one `RD` line by the target of its slot. -/
theorem readResultsBoundToNames : Obligations.ReadResultsBoundToNames := by
  refine ⟨fun ls s hls => ?_, fun ls s hls => by rw [runScript, scriptEvents_illFormed hls], fun name s => ⟨?_, fun j => ?_,
    fun j => ?_, fun i hi h1 h2 => ?_⟩⟩
  · obtain ⟨es, hes, hlen⟩ := exists_scriptEvents hls
    obtain ⟨t, vs, hrun, hend, hvalues, hcount⟩ := run_script hls hes (s := s.setPending es) rfl
    refine ⟨es, _, hes, hlen, runScript_eq hes hrun hvalues, hrun, hend, List.map_fst_zip hcount.ge, ?_⟩
    rw [List.map_snd_zip hcount.le]
    exact hvalues
  · rw [← readValue_status (i := 1) rfl s]
    exact valueOf_rd (by decide) name s
  · rw [← readValue_din (i := BitVec.ofNat 6 (12 + j.val)) (slotIndex_toNat (by omega)) s]
    exact valueOf_rd (by omega) name s
  · rw [← readValue_dout (i := BitVec.ofNat 6 (16 + j.val)) (slotIndex_toNat (by omega)) s]
    exact valueOf_rd (by omega) name s
  · have hslot : (BitVec.ofNat 6 i).toNat = i := slotIndex_toNat hi
    rw [← readValue_notPermitted (i := BitVec.ofNat 6 i) (by omega) (by omega) s]
    exact valueOf_rd hi name s

end Sys2Proof.Machine
end

section
/-! SUPPORT. Proofs of the statements on the pseudo-instructions (30_encoding.md R69): their lines, and the byte strings they
give out. -/

namespace Sys2Proof.Machine

/-! ### The lines (R69) -/

/-- R69: the `WR` lines of a byte string of whole words. -/
theorem loadLines_eq {x : List Byte} {n : Nat} (base : Nat) (hx : x.length = 4 * n) : loadLines base x =
    (List.range n).map fun j => .wr (base + j)
      (wordOf (x.getD (4 * j) 0) (x.getD (4 * j + 1) 0) (x.getD (4 * j + 2) 0) (x.getD (4 * j + 3) 0)).toNat := by
  have hlen := packWords_length x n hx
  refine List.ext_getElem (by simp [loadLines, hlen]) fun j hj hj' => ?_
  have hjn : j < n := by simpa using hj'
  have hword := packWords_getD x n j hx hjn
  rw [List.getD_eq_getElem _ _ (by omega)] at hword
  rw [List.getElem_map, List.getElem_range, ← hword]
  simp [loadLines]

theorem legalKeyString_iff (x : List Byte) : legalKeyString x = true ↔ x.length = 16 ∨ x.length = 24 ∨ x.length = 32 := by
  simp [legalKeyString, Config.keyLengths]

theorem loadKeyLines_of_legal {x : List Byte} (h : x.length = 16 ∨ x.length = 24 ∨ x.length = 32) :
    loadKeyLines x = loadLines 4 x := if_pos ((legalKeyString_iff x).2 h)

/-- Log entry 9: the `LDKEY` part is left out for a key of illegal length. -/
theorem loadKeyLines_of_illegal {x : List Byte} (h : ¬ (x.length = 16 ∨ x.length = 24 ∨ x.length = 32)) :
    loadKeyLines x = [] := if_neg (by rwa [legalKeyString_iff])

/-- Settles O9: the `WR` lines word by word; the other lines stand in the definition. -/
theorem pseudoInstructionExpansion : Obligations.PseudoInstructionExpansion := by
  refine ⟨fun x n hx hn => ?_, fun x h16 h24 h32 => ?_, fun x y hx => ?_⟩
  · have hload := (loadKeyLines_of_legal (x := x) (by omega)).trans (loadLines_eq 4 hx)
    simp [pseudoLines, cookEncryptLines, cookDecryptLines, hload, hx]
  · have hload := loadKeyLines_of_illegal (x := x) (by omega)
    simp [pseudoLines, cookEncryptLines, cookDecryptLines, hload]
  · simp [pseudoLines, storeBlockLines, loadLines_eq (n := 4) 12 hx]

/-! ### The events of the block pseudo-instructions (R69) -/

/-- R69: the block of a byte string. -/
def blockOfBytes (x : List Byte) : Block := Vector.ofFn fun k => x.getD k.val 0

/-- R69: the events of `LDBLK` for a block of these words. -/
def loadBlockEvents (w : Vector Word 4) : List Event := [.wr 12 w[0], .wr 13 w[1], .wr 14 w[2], .wr 15 w[3]]

/-- R69: the events of `STBLK`. -/
def storeBlockEvents : List Event := [.rd 16, .rd 17, .rd 18, .rd 19]

theorem scriptEvents_append {ls ls' : List Line} {es es' : List Event} (h : scriptEvents ls = some es)
    (h' : scriptEvents ls' = some es') : scriptEvents (ls ++ ls') = some (es ++ es') := by
  rw [scriptEvents] at h h' ⊢
  simp [List.mapM_append, h, h']

theorem scriptEvents_loadBlock {x : List Byte} (hx : x.length = 16) :
    scriptEvents (loadLines 12 x) = some (loadBlockEvents (wordsOf (blockOfBytes x))) := by
  have hline (i : Nat) (hi : i < 64) (w : Word) : lineEvent (.wr i w.toNat) = some (.wr (BitVec.ofNat 6 i) w) := by
    rw [lineEvent_wr hi w.isLt, BitVec.ofNat_toNat, BitVec.setWidth_eq]
  have hwords : loadLines 12 x = [.wr 12 (wordsOf (blockOfBytes x))[0].toNat, .wr 13 (wordsOf (blockOfBytes x))[1].toNat,
      .wr 14 (wordsOf (blockOfBytes x))[2].toNat, .wr 15 (wordsOf (blockOfBytes x))[3].toNat] := by
    rw [loadLines_eq (n := 4) 12 hx]
    simp [List.range_succ, blockOfBytes]
  rw [hwords]
  exact scriptEvents_cons (hline 12 (by decide) _) (scriptEvents_cons (hline 13 (by decide) _)
    (scriptEvents_cons (hline 14 (by decide) _) (scriptEvents_cons (hline 15 (by decide) _) rfl)))

theorem scriptEvents_storeBlock (y : String) : scriptEvents (storeBlockLines y) = some storeBlockEvents := rfl

/-! ### The runs of the events (R45, R46) -/

theorem vector_four_toList (w : Vector Word 4) : w.toList = [w[0], w[1], w[2], w[3]] := by
  refine List.ext_getElem (by simp) fun k hk _ => ?_
  rw [Vector.length_toList] at hk
  interval_cases k <;> simp

/-- R45: four writes replace `DIN`. -/
theorem run_loadBlock {s : State} {w : Vector Word 4} {rest : List Event} (hp : s.pending = loadBlockEvents w ++ rest)
    (k : Nat) : core.run (k + 4) s = core.run k { s with din := w, pending := rest } := by
  have hdin : (((s.din.set 0 w[0]).set 1 w[1]).set 2 w[2]).set 3 w[3] = w := by
    ext j hj
    interval_cases j <;> simp
  refine (run_succ (k + 3) (step_write_din hp 0 rfl)).trans ?_
  refine (run_succ (k + 2) (step_write_din rfl 1 rfl)).trans ?_
  refine (run_succ (k + 1) (step_write_din rfl 2 rfl)).trans ?_
  refine (run_succ k (step_write_din rfl 3 rfl)).trans ?_
  exact congrArg (core.run k) (State.ext_fields rfl hdin rfl rfl rfl rfl rfl rfl rfl rfl rfl)

/-- R46: four reads return `DOUT`. -/
theorem run_storeBlock {s : State} (hp : s.pending = storeBlockEvents) :
    core.run 4 s = .next { s with pending := [], returned := s.returned ++ s.dout.toList } := by
  refine (run_succ 3 (step_read_dout hp 0 rfl)).trans ?_
  refine (run_succ 2 (step_read_dout rfl 1 rfl)).trans ?_
  refine (run_succ 1 (step_read_dout rfl 2 rfl)).trans ?_
  refine (run_succ 0 (step_read_dout rfl 3 rfl)).trans ?_
  rw [run_zero, vector_four_toList]
  simp [State.giveBack, State.setPending]

/-! ### The byte string given out (R69) -/

/-- R19: the bytes of the words of a block. -/
theorem fileBytes_wordsOf (b : Block) : fileBytes (wordsOf b).toList 16 = b.toList := by
  refine List.ext_getElem? fun k => ?_
  by_cases hk : k < 16
  · have hword : (wordsOf b).toList[k / 4]? = some (wordsOf b)[k / 4] := by simp [show k / 4 < 4 by omega]
    rw [fileBytes, List.getElem?_take_of_lt hk, flatMap_wordBytes_getElem?, hword, Option.map_some, byteOf_wordsOf b hk]
    simp [hk]
  · rw [List.getElem?_eq_none (by simp; omega), List.getElem?_eq_none (by simp; omega)]

theorem boundNames_storeBlock (y : String) : boundNames (storeBlockLines y) = [y ++ "0", y ++ "1", y ++ "2", y ++ "3"] := rfl

/-- R69: the four names of a block are different. -/
theorem byteString_storeBlock (y : String) (t : State) (w : Vector Word 4) :
    (ScriptRun.mk t ((boundNames (storeBlockLines y)).zip w.toList)).byteString y = some (fileBytes w.toList 16) := by
  rw [boundNames_storeBlock, vector_four_toList]
  simp [ScriptRun.byteString, ScriptRun.valueOf, Config.blockBytes]

/-! ### The runs of the pseudo-instructions (R69) -/

/-- R69: `STBLK -> Y` gives out the bytes of `DOUT`. -/
theorem runPseudo_storeBlock (y : String) (s : State) : runPseudo (.stBlk y) s =
    some (⟨{ s with pending := [], returned := s.returned ++ s.dout.toList },
      (boundNames (storeBlockLines y)).zip s.dout.toList⟩, some (fileBytes s.dout.toList 16)) := by
  have hrun := runScript_eq (s := s) (scriptEvents_storeBlock y) (run_storeBlock rfl) rfl
  rw [runPseudo, pseudoLines, hrun]
  exact congrArg (fun out => some (_, out)) (byteString_storeBlock y _ s.dout)

/-- R68: `WR` lines bind no name. -/
theorem boundNames_loadLines (base : Nat) (x : List Byte) : boundNames (loadLines base x) = [] := by
  refine List.filterMap_eq_nil_iff.2 fun l hl => ?_
  obtain ⟨j, hj, rfl⟩ := List.mem_mapIdx.1 hl
  rfl

/-- R69: from `s` the pseudo-instruction gives out these bytes, and leaves `DVALID` and `ERR` at these values. -/
def Pseudo.givesOut (p : Pseudo) (s : State) (out : List Byte) (dvalid : Bool) (err : BitVec 4) : Prop :=
  ∃ r, runPseudo p s = some (r, some out) ∧ r.finalState.dvalid = dvalid ∧ r.finalState.err = err

/-- R69: the state in which the block command of a block pseudo-instruction runs. -/
def State.withBlock (x : List Byte) (s : State) : State :=
  { s with din := wordsOf (blockOfBytes x), pending := storeBlockEvents }

/-- R69: a block pseudo-instruction whose block command is `c` gives out the `DOUT` that `c` leaves. -/
theorem givesOut_of_blockCommand {p : Pseudo} {l : Line} {c : Instr} {x : List Byte} {y : String}
    (hlines : pseudoLines p = loadLines 12 x ++ [l] ++ storeBlockLines y) (hout : pseudoOutput p = some y)
    (hl : lineEvent l = some (.wr 0 (encode c))) (hname : lineName l = none) (hx : x.length = 16) {s t : State}
    (h : exec c (s.withBlock x) = .next t) : Pseudo.givesOut p s (fileBytes t.dout.toList 16) t.dvalid t.err := by
  have hevents : scriptEvents (pseudoLines p) =
      some (loadBlockEvents (wordsOf (blockOfBytes x)) ++ [.wr 0 (encode c)] ++ storeBlockEvents) := hlines ▸
    scriptEvents_append (scriptEvents_append (scriptEvents_loadBlock hx) (scriptEvents_cons hl scriptEvents_nil))
      (scriptEvents_storeBlock y)
  have hnames : boundNames (pseudoLines p) = boundNames (storeBlockLines y) := by
    rw [hlines, boundNames, List.filterMap_append, List.filterMap_append, ← boundNames, ← boundNames, ← boundNames,
      boundNames_loadLines, boundNames_cons_of_none hname]
    rfl
  obtain ⟨hpending, hreturned⟩ := exec_host_lists h
  have hstep : step ((s.withBlock x).setPending (.wr 0 (encode c) :: storeBlockEvents)) = .next t :=
    Eq.trans (step_command rfl rfl (decode_encode c)) h
  have hrun := (run_loadBlock (s := s.setPending _) (w := wordsOf (blockOfBytes x)) rfl 5).trans
    ((run_succ 4 hstep).trans (run_storeBlock hpending))
  have hpseudo : runPseudo p s = some (⟨{ t with pending := [], returned := t.returned ++ t.dout.toList },
      (boundNames (storeBlockLines y)).zip t.dout.toList⟩, some (fileBytes t.dout.toList 16)) := by
    rw [runPseudo, runScript_eq hevents hrun (congrArg (· ++ t.dout.toList) hreturned), hout, hnames]
    exact congrArg (fun out => some (_, out)) (byteString_storeBlock y _ t.dout)
  exact ⟨_, hpseudo, rfl, rfl⟩

/-- R110, R115: the block command with a schedule of its order in the slot. -/
theorem blockCommand_withBlock_ready (run : Block → Schedule → Nat → Block) {order : Bool} (x : List Byte) {s : State}
    (h : s.kvalid = true ∧ s.kdir = order) : blockCommand run order (s.withBlock x) =
      (s.withBlock x).setResult (wordsOf (run (blockOfBytes x) s.rk s.nr.toNat)) := by
  have hdin : blockOf (s.withBlock x).din = blockOfBytes x := blockOf_wordsOf _
  rw [blockCommand_ready (s := s.withBlock x) ((s.holdsSchedule_iff order).2 h), hdin]
  rfl

/-- R111, R116: the block command without one. -/
theorem blockCommand_withBlock_notReady (run : Block → Schedule → Nat → Block) {order : Bool} (x : List Byte) {s : State}
    (h : ¬ (s.kvalid = true ∧ s.kdir = order)) :
    blockCommand run order (s.withBlock x) = failBlockCommand (s.withBlock x) :=
  blockCommand_of_noSchedule (s := s.withBlock x) run h

theorem fileBytes_zeroBlock : fileBytes (Vector.replicate 4 0 : Vector Word 4).toList 16 = List.replicate 16 0 := by
  rw [Vector.toList_replicate]
  exact fileBytes_replicate_zero 4 16

theorem encryptBlock_givesOut (y : String) {x : List Byte} (hx : x.length = 16) {s t : State}
    (h : blockCommand cipher false (s.withBlock x) = t) :
    Pseudo.givesOut (.encryptBlock x y) s (fileBytes t.dout.toList 16) t.dvalid t.err :=
  givesOut_of_blockCommand rfl rfl rfl rfl hx ((exec_enc _).trans (congrArg _ h))

theorem decryptBlock_givesOut (y : String) {x : List Byte} (hx : x.length = 16) {s t : State}
    (h : blockCommand eqInvCipher true (s.withBlock x) = t) :
    Pseudo.givesOut (.decryptBlock x y) s (fileBytes t.dout.toList 16) t.dvalid t.err :=
  givesOut_of_blockCommand rfl rfl rfl rfl hx ((exec_dec _).trans (congrArg _ h))

/-! ### The cook pseudo-instructions complete (R69) -/

/-- R68: the `WR` lines of a string that fits the window are well formed. -/
theorem loadLines_wellFormed {base : Nat} {x : List Byte} (h : base + (packWords x).length ≤ 64) :
    ∀ l ∈ loadLines base x, l.wellFormed = true := by
  intro l hl
  obtain ⟨j, hj, rfl⟩ := List.mem_mapIdx.1 hl
  have hslot : base + j < Config.windowSlots := by
    rw [Config.windowSlots]
    omega
  exact Bool.and_eq_true_iff.2 ⟨decide_eq_true hslot, decide_eq_true (packWords x)[j].isLt⟩

/-- Log entry 9: a key of illegal length has no lines, and one of legal length at most eight. -/
theorem loadKeyLines_wellFormed (x : List Byte) : ∀ l ∈ loadKeyLines x, l.wellFormed = true := by
  by_cases hlegal : x.length = 16 ∨ x.length = 24 ∨ x.length = 32
  · rw [loadKeyLines_of_legal hlegal]
    have hlen := packWords_length x (x.length / 4) (by omega)
    exact loadLines_wellFormed (by omega)
  · simp [loadKeyLines_of_illegal hlegal]

/-- R69: a pseudo-instruction that names no output gives out none. -/
theorem runPseudo_of_noOutput {p : Pseudo} (hlines : ∀ l ∈ pseudoLines p, l.wellFormed = true) (hout : pseudoOutput p = none)
    (s : State) : ∃ r, runPseudo p s = some (r, none) := by
  obtain ⟨es, r, -, -, hrun, -⟩ := readResultsBoundToNames.1 (pseudoLines p) s hlines
  exact ⟨r, by rw [runPseudo, hrun, hout]; rfl⟩

theorem cookLines_wellFormed {x : List Byte} {l : Line} (hl : l.wellFormed = true) :
    ∀ l' ∈ loadKeyLines x ++ [l], l'.wellFormed = true := by
  intro l' hmem
  rcases List.mem_append.1 hmem with hload | hlast
  · exact loadKeyLines_wellFormed x l' hload
  · rwa [List.mem_singleton.1 hlast]

/-- Settles O59: the block pseudo-instructions by the two branches of the block command they run. -/
theorem pseudoInstructionOutputs : Obligations.PseudoInstructionOutputs := by
  refine ⟨fun y s => ⟨_, runPseudo_storeBlock y s, rfl⟩, fun x y s hx => ⟨fun h => ?_, fun h => ?_, fun h => ?_, fun h => ?_⟩,
    fun x s hx => ?_⟩
  · have hgives := encryptBlock_givesOut y hx (blockCommand_withBlock_ready cipher x h)
    rwa [State.setResult_dout, fileBytes_wordsOf] at hgives
  · have hgives := encryptBlock_givesOut y hx (blockCommand_withBlock_notReady cipher x h)
    rwa [failBlockCommand, State.raise_dout, State.clearResult_dout, fileBytes_zeroBlock] at hgives
  · have hgives := decryptBlock_givesOut y hx (blockCommand_withBlock_ready eqInvCipher x h)
    rwa [State.setResult_dout, fileBytes_wordsOf] at hgives
  · have hgives := decryptBlock_givesOut y hx (blockCommand_withBlock_notReady eqInvCipher x h)
    rwa [failBlockCommand, State.raise_dout, State.clearResult_dout, fileBytes_zeroBlock] at hgives
  · have hklen : (Line.kexpE x.length).wellFormed = true ∧ (Line.kexpD x.length).wellFormed = true := by
      simp [Line.wellFormed, hx]
    obtain ⟨r, hr⟩ := runPseudo_of_noOutput (p := .cookEncryptKey x) (cookLines_wellFormed hklen.1) rfl s
    obtain ⟨q, hq⟩ := runPseudo_of_noOutput (p := .cookDecryptKey x) (cookLines_wellFormed hklen.2) rfl s
    exact ⟨r, q, hr, hq⟩

end Sys2Proof.Machine
end
